-- ==== Sys2Proof/Word.lean ====
section
/-! DEFINITION. The plain types every other file uses: the register word (`00_scope.md` R8, R9), the
register index, the data address and the token. -/

namespace Sys2Proof

/-- A register value and a data-memory cell: XLEN = 32 bits (R8; log entry 1). -/
abbrev Word := BitVec 32

/-- A register index, 0 to 31 (R22). -/
abbrev RegIdx := Fin 32

/-- A data address: a mathematical integer, unbounded and never wrapped (R8, R50). -/
abbrev Addr := Int

/-- A token of a slot (R12). That it is non-empty, without whitespace and without comma is checked by
`tokenWf`; the machine itself gives every string a meaning. -/
abbrev Token := String

/-- One slot of the loaded sequence: the opcode token and then the operand tokens (R21, R70). -/
abbrev TokenLine := List Token

end Sys2Proof
end

