-- ==== Sys2Proof/Config.lean ====
section
/-! DEFINITION. The implementation parameters of `00_scope.md` R8 that are values. The spec fixes every
one of them, so none is a free value and nothing here is opaque. -/

namespace Sys2Proof

/-- The link register of `JAL` when `rd` is omitted: register 1 (R8, R26). -/
def Config.linkRegister : RegIdx := 1

/-- The entry point: slot 0 of the instruction store (R41, R191). -/
def Config.entrySlot : Nat := 0

/-- What a register holds after reset (R41; log entry 3). -/
def Config.resetRegister : Word := 0

/-- What a load of an unpopulated address gives: "absent keys read as 0" (R34, R52). -/
def Config.unpopulatedWord : Word := 0

end Sys2Proof
end

