-- ==== Sys2Proof/Syntax.lean ====
section
/-! DEFINITION. The instruction set as data: the nine tags, the decoded instructions, the decode reasons
and the four slot classes (`30_encoding.md` R79, R85, R86). -/

namespace Sys2Proof

/-- The nine mnemonics, in the numbering order of R79. -/
inductive Tag where
  | add | sub | addi | li | lw | sw | beq | jal | j
deriving DecidableEq, Repr

/-- The tag numbers 0 .. 8 of R79 and R86. -/
def Tag.number : Tag → Nat
  | .add => 0 | .sub => 1 | .addi => 2 | .li => 3 | .lw => 4 | .sw => 5 | .beq => 6 | .jal => 7 | .j => 8

/-- The class of an operand position (R74, R75, R76). -/
inductive FieldClass where
  | reg | imm | label
deriving DecidableEq, Repr

/-- The formats of R78: for each mnemonic the classes of its operands, one list for each operand count of its
ARITY (R80). -/
def Tag.formats : Tag → List (List FieldClass)
  | .add  => [[.reg, .reg, .reg]]
  | .sub  => [[.reg, .reg, .reg]]
  | .addi => [[.reg, .reg, .imm]]
  | .li   => [[.reg, .imm]]
  | .lw   => [[.reg, .imm, .reg]]
  | .sw   => [[.reg, .imm, .reg]]
  | .beq  => [[.reg, .reg, .label]]
  | .jal  => [[.label], [.reg, .label]]
  | .j    => [[.label]]

/-- ARITY (R80): the operand counts a mnemonic accepts. -/
def Tag.arity (m : Tag) : List Nat := m.formats.map List.length

/-- A recognized and well-formed instruction: one constructor per row of `spec/opcode_table.json`, holding
exactly the fields its format carries (R78, R79), in the order the source writes them. Immediates are
integers as written, of any size (R83); a target is the token as written (R76). -/
inductive Instr where
  | add  (rd rs1 rs2 : RegIdx)
  | sub  (rd rs1 rs2 : RegIdx)
  | addi (rd rs1 : RegIdx) (imm : Int)
  | li   (rd : RegIdx) (imm : Int)
  | lw   (rd : RegIdx) (offset : Int) (rs1 : RegIdx)
  | sw   (rs2 : RegIdx) (offset : Int) (rs1 : RegIdx)
  | beq  (rs1 rs2 : RegIdx) (target : Token)
  | jal  (rd : RegIdx) (target : Token)
  | j    (target : Token)
deriving DecidableEq, Repr

/-- The tag a decoded instruction is dispatched on (R108). -/
def Instr.tag : Instr → Tag
  | .add _ _ _  => .add
  | .sub _ _ _  => .sub
  | .addi _ _ _ => .addi
  | .li _ _     => .li
  | .lw _ _ _   => .lw
  | .sw _ _ _   => .sw
  | .beq _ _ _  => .beq
  | .jal _ _    => .jal
  | .j _        => .j

/-- The label operand of a control transfer, where the format carries one (R78). -/
def Instr.target? : Instr → Option Token
  | .add _ _ _  => none
  | .sub _ _ _  => none
  | .addi _ _ _ => none
  | .li _ _     => none
  | .lw _ _ _   => none
  | .sw _ _ _   => none
  | .beq _ _ t  => some t
  | .jal _ t    => some t
  | .j t        => some t

/-- The record of R79, in which a field the format does not carry is 0 or the empty token. -/
structure Decoded where
  tag    : Tag
  rd     : RegIdx := 0
  rs1    : RegIdx := 0
  rs2    : RegIdx := 0
  imm    : Int := 0
  target : Token := ""
deriving DecidableEq, Repr

/-- Why a slot is a Malformed Operand (R79, R82). -/
inductive MalformedReason where
  | empty          -- the slot has no token (R70)
  | operandCount   -- an operand count outside the mnemonic's ARITY (R80)
  | badRegister    -- an operand that is no register token (R74)
  | registerRange  -- a register token with index 32 or more (R74)
  | badImmediate   -- an operand that is no signed decimal integer (R75)
deriving DecidableEq, Repr

/-- The four classes of R85; every slot falls into exactly one. `malformed none` is the empty slot, which
has no opcode token ("Token or empty", R79). -/
inductive Slot where
  | labelDef  (name : Token)
  | unknown   (opcode : Token)
  | malformed (opcode : Option Token) (reason : MalformedReason)
  | instr     (i : Instr)
deriving DecidableEq, Repr

/-- The label name of a Label Definition slot (R71). -/
def Slot.labelName? : Slot → Option Token
  | .labelDef name => some name
  | .unknown _     => none
  | .malformed _ _ => none
  | .instr _       => none

end Sys2Proof
end

