-- ==== Sys2Proof/WellFormed.lean ====
section
/-! DEFINITION. What the block may assume of its input: a token is a non-empty string with no whitespace
and no comma (`00_scope.md` R12, `30_encoding.md` R70). Register indices and immediates need no check, since
their types hold exactly the legal values. -/

namespace Sys2Proof

/-- Whitespace: the six ASCII blanks (DESIGN CHOICE, log entry 9: the spec does not list them). -/
def isBlank (c : Char) : Bool :=
  c == ' ' || c == '\t' || c == '\n' || c == '\r' || c.toNat == 11 || c.toNat == 12

/-- A character that may stand in a token (R12). -/
def isTokenChar (c : Char) : Bool := !isBlank c && c != ','

/-- R12: a token is a non-empty string containing no whitespace and no comma. -/
def tokenWf (t : Token) : Bool := !t.toList.isEmpty && t.toList.all isTokenChar

/-- A slot as the external loader delivers it: tokens only (R70, R192). -/
def slotWf (line : TokenLine) : Bool := line.all tokenWf

/-- A decoded instruction is well formed when its label operand, if it has one, is a token. -/
def Instr.wf (i : Instr) : Bool :=
  match i.target? with
  | none   => true
  | some t => tokenWf t

end Sys2Proof
end

