-- ==== Sys2Proof/Decode.lean ====
section
/-! DEFINITION. The decode stage (`30_encoding.md` R70 to R91): a pure, total function from one slot's tokens
to its class, and after it an encoder. There is no binary encoding (R91); the numbered words of
`decodeTableWord` are the ASCII text of a source line (log entry 8). -/

namespace Sys2Proof

/-! ### Token primitives (`00_scope.md` R12) -/

/-- ASCII case folding of one character; every other character is unchanged. -/
def lowerChar (c : Char) : Char :=
  if 'A' ≤ c ∧ c ≤ 'Z' then Char.ofNat (c.toNat + 32) else c

/-- `lower(s)`: maps `A`-`Z` to `a`-`z` (R12, R73). -/
def lower (s : Token) : Token := String.ofList (s.toList.map lowerChar)

/-- An ASCII decimal digit. -/
def isDigitChar (c : Char) : Bool := decide ('0' ≤ c) && decide (c ≤ '9')

/-- The value of a decimal digit. -/
def digitVal (c : Char) : Nat := c.toNat - 48

/-- One or more ASCII digits and nothing else. -/
def allDigits (cs : List Char) : Bool := !cs.isEmpty && cs.all isDigitChar

/-- The decimal value of a digit list, most significant digit first. -/
def decimalVal (cs : List Char) : Nat := cs.foldl (fun n c => 10 * n + digitVal c) 0

/-- `isNumeral(s)` (R12). -/
def isNumeral (s : Token) : Bool := allDigits s.toList

/-- `natval(s)`: the decimal value of a numeral (R12). -/
def natval (s : Token) : Nat := decimalVal s.toList

/-- A digit list less its optional sign. -/
def unsigned : List Char → List Char
  | [] => []
  | c :: cs => if c = '+' ∨ c = '-' then cs else c :: cs

/-- `isInt(s)`: an optional `+` or `-` followed by one or more ASCII digits (R12, R75). -/
def isInt (s : Token) : Bool := allDigits (unsigned s.toList)

/-- `intval(s)`: the decimal value of an integer token with its sign (R12). -/
def intval (s : Token) : Int :=
  if s.toList.head? = some '-' then -(decimalVal (unsigned s.toList) : Int)
  else (decimalVal (unsigned s.toList) : Int)

/-- The part after an optional `x` or `X` (R74). -/
def regDigits : List Char → List Char
  | [] => []
  | c :: cs => if c = 'x' ∨ c = 'X' then cs else c :: cs

/-- `isRegTok(s)` (R81): `s = P ++ D` with `P` in {"", "x", "X"} and `D` a numeral. -/
def isRegTok (s : Token) : Bool := allDigits (regDigits s.toList)

/-- `regval(s)` (R81). -/
def regval (s : Token) : Nat := decimalVal (regDigits s.toList)

/-- The token ends with `:` (R71). -/
def endsWithColon (s : Token) : Bool := s.toList.getLast? == some ':'

/-- The token without its last character (R71, R81). -/
def dropLastChar (s : Token) : Token := String.ofList s.toList.dropLast

/-! ### The mnemonic field (R73) -/

/-- The lower-case mnemonic of a tag (R73, R86). -/
def Tag.mnemonic : Tag → Token
  | .add => "add" | .sub => "sub" | .addi => "addi" | .li => "li" | .lw => "lw"
  | .sw => "sw" | .beq => "beq" | .jal => "jal" | .j => "j"

/-- Every tag, in the numbering order of R79. -/
def Tag.all : List Tag := [.add, .sub, .addi, .li, .lw, .sw, .beq, .jal, .j]

/-- The tag an opcode token selects, matched case-insensitively; none is an Unknown Instruction (R73, R84). -/
def tagOf (opcode : Token) : Option Tag := Tag.all.find? (fun m => m.mnemonic == lower opcode)

/-! ### Operand classes (R74, R75, R76) -/

/-- A register operand: `BAD_REGISTER` is checked before `REGISTER_RANGE` (R74, R82). -/
def regOperand (s : Token) : Except MalformedReason RegIdx :=
  if isRegTok s then
    if h : regval s < 32 then .ok ⟨regval s, h⟩ else .error .registerRange
  else .error .badRegister

/-- An immediate operand: its value is exactly as written, unscaled and of any size (R75, R83). -/
def immOperand (s : Token) : Except MalformedReason Int :=
  if isInt s then .ok (intval s) else .error .badImmediate

/-! ### Formats (R78): operands are read from left to right, so the leftmost fault is reported (R82) -/

/-- Format RRR, `op rd rs1 rs2`. -/
def formatRRR (mk : RegIdx → RegIdx → RegIdx → Instr) : List Token → Except MalformedReason Instr
  | [t1, t2, t3] => do return mk (← regOperand t1) (← regOperand t2) (← regOperand t3)
  | _ => .error .operandCount

/-- Format RRI, `op rd rs1 imm`. -/
def formatRRI (mk : RegIdx → RegIdx → Int → Instr) : List Token → Except MalformedReason Instr
  | [t1, t2, t3] => do return mk (← regOperand t1) (← regOperand t2) (← immOperand t3)
  | _ => .error .operandCount

/-- Format RI, `op rd imm`. -/
def formatRI (mk : RegIdx → Int → Instr) : List Token → Except MalformedReason Instr
  | [t1, t2] => do return mk (← regOperand t1) (← immOperand t2)
  | _ => .error .operandCount

/-- Formats LOAD, `op rd offset rs1`, and STORE, `op rs2 offset rs1`. -/
def formatMem (mk : RegIdx → Int → RegIdx → Instr) : List Token → Except MalformedReason Instr
  | [t1, t2, t3] => do return mk (← regOperand t1) (← immOperand t2) (← regOperand t3)
  | _ => .error .operandCount

/-- Format BRANCH, `op rs1 rs2 label`; any token is accepted as the label (R76). -/
def formatBranch (mk : RegIdx → RegIdx → Token → Instr) : List Token → Except MalformedReason Instr
  | [t1, t2, t3] => do return mk (← regOperand t1) (← regOperand t2) t3
  | _ => .error .operandCount

/-- Formats JAL-1, `op label` with rd := 1, and JAL-2, `op rd label`, chosen by the operand count. -/
def formatJal (mk : RegIdx → Token → Instr) : List Token → Except MalformedReason Instr
  | [t1] => .ok (mk Config.linkRegister t1)
  | [t1, t2] => do return mk (← regOperand t1) t2
  | _ => .error .operandCount

/-- Format JUMP, `op label`. -/
def formatJump (mk : Token → Instr) : List Token → Except MalformedReason Instr
  | [t1] => .ok (mk t1)
  | _ => .error .operandCount

/-- The opcode map: each mnemonic's format (R78, R86). -/
def decodeOperands (m : Tag) (ops : List Token) : Except MalformedReason Instr :=
  match m with
  | .add  => formatRRR .add ops
  | .sub  => formatRRR .sub ops
  | .addi => formatRRI .addi ops
  | .li   => formatRI .li ops
  | .lw   => formatMem .lw ops
  | .sw   => formatMem .sw ops
  | .beq  => formatBranch .beq ops
  | .jal  => formatJal .jal ops
  | .j    => formatJump .j ops

/-- The class of a slot whose mnemonic is recognized, from what its operands gave (R79, R81). -/
def recognizedSlot (opcode : Token) : Except MalformedReason Instr → Slot
  | .ok i    => .instr i
  | .error r => .malformed (some opcode) r

/-- A slot whose opcode token is `opcode` and which is no Label Definition (R72). -/
def decodeInstruction (opcode : Token) (ops : List Token) : Slot :=
  match tagOf opcode with
  | none   => .unknown opcode
  | some m => recognizedSlot opcode (decodeOperands m ops)

/-- `decode(t)` of R81, total on every token list. -/
def decode : TokenLine → Slot
  | [] => .malformed none .empty
  | opcode :: ops =>
    if ops = [] ∧ endsWithColon opcode = true then .labelDef (dropLastChar opcode)
    else decodeInstruction opcode ops

/-- The record of R79 for a decoded instruction. -/
def Instr.decoded : Instr → Decoded
  | .add rd rs1 rs2     => { tag := .add, rd := rd, rs1 := rs1, rs2 := rs2 }
  | .sub rd rs1 rs2     => { tag := .sub, rd := rd, rs1 := rs1, rs2 := rs2 }
  | .addi rd rs1 imm    => { tag := .addi, rd := rd, rs1 := rs1, imm := imm }
  | .li rd imm          => { tag := .li, rd := rd, imm := imm }
  | .lw rd offset rs1   => { tag := .lw, rd := rd, rs1 := rs1, imm := offset }
  | .sw rs2 offset rs1  => { tag := .sw, rs1 := rs1, rs2 := rs2, imm := offset }
  | .beq rs1 rs2 target => { tag := .beq, rs1 := rs1, rs2 := rs2, target := target }
  | .jal rd target      => { tag := .jal, rd := rd, target := target }
  | .j target           => { tag := .j, target := target }

/-! ### The encoder: one canonical spelling of each instruction (log entry 10) -/

/-- The character of a decimal digit below 10. -/
def digitChar (d : Nat) : Char := Char.ofNat (48 + d)

/-- The digits of `n` in front of `acc`; `fuel` bounds the number of digits. -/
def digitsAux : Nat → Nat → List Char → List Char
  | 0, _, acc => acc
  | fuel + 1, n, acc =>
    if n < 10 then digitChar n :: acc else digitsAux fuel (n / 10) (digitChar (n % 10) :: acc)

/-- The decimal digits of `n`, without leading zeros. -/
def decimalDigits (n : Nat) : List Char := digitsAux (n.log2 + 1) n []

/-- A register written `xN` (R74). -/
def regToken (r : RegIdx) : Token := String.ofList ('x' :: decimalDigits r.val)

/-- An immediate written with a `-` where it is negative and no sign elsewhere (R75). -/
def immToken : Int → Token
  | .ofNat n   => String.ofList (decimalDigits n)
  | .negSucc n => String.ofList ('-' :: decimalDigits (n + 1))

/-- The slot of an instruction, by the formats of R78; `JAL` is written in its two-operand form. -/
def encode : Instr → TokenLine
  | .add rd rs1 rs2     => [Tag.mnemonic .add, regToken rd, regToken rs1, regToken rs2]
  | .sub rd rs1 rs2     => [Tag.mnemonic .sub, regToken rd, regToken rs1, regToken rs2]
  | .addi rd rs1 imm    => [Tag.mnemonic .addi, regToken rd, regToken rs1, immToken imm]
  | .li rd imm          => [Tag.mnemonic .li, regToken rd, immToken imm]
  | .lw rd offset rs1   => [Tag.mnemonic .lw, regToken rd, immToken offset, regToken rs1]
  | .sw rs2 offset rs1  => [Tag.mnemonic .sw, regToken rs2, immToken offset, regToken rs1]
  | .beq rs1 rs2 target => [Tag.mnemonic .beq, regToken rs1, regToken rs2, target]
  | .jal rd target      => [Tag.mnemonic .jal, regToken rd, target]
  | .j target           => [Tag.mnemonic .j, target]

/-! ### The host's numbered words, read as text (DESIGN CHOICE, log entry 8) -/

/-- The low `n` bytes of `w` as characters, the lowest byte first. -/
def wordChars : Nat → Nat → List Char
  | 0, _ => []
  | n + 1, w => Char.ofNat (w % 256) :: wordChars n (w / 256)

/-- A character that ends a token in a source line: a blank, a comma, or a zero byte of padding (R88). -/
def isSeparator (c : Char) : Bool := !isTokenChar c || c.toNat == 0

/-- Splits text into tokens at separators; `cur` is the token being read, last character first. -/
def splitTokens : List Char → List Char → TokenLine
  | [], [] => []
  | [], c :: cur => [String.ofList (c :: cur).reverse]
  | c :: cs, cur =>
    if isSeparator c then
      match cur with
      | [] => splitTokens cs []
      | d :: ds => String.ofList (d :: ds).reverse :: splitTokens cs []
    else splitTokens cs (c :: cur)

/-- The slot whose source text is the `nbits / 8` bytes of `w`, first character lowest. -/
def lineOfTableWord (nbits w : Nat) : TokenLine := splitTokens (wordChars (nbits / 8) w) []

/-- The instruction of a decoded slot, none for the other three classes. -/
def Slot.instr? : Slot → Option Instr
  | .labelDef _    => none
  | .unknown _     => none
  | .malformed _ _ => none
  | .instr i       => some i

/-- What the decoder reads from an instruction whose bits are `w`; none where the text is no
well-formed instruction. -/
def decodeTableWord (nbits w : Nat) : Option Instr := (decode (lineOfTableWord nbits w)).instr?

end Sys2Proof
end

