-- ==== Sys2Proof/Machine/State.lean ====
section
/-! DEFINITION. The block's state as plain data (`10_state.md` R21), the records it holds, the reasons a step
can stop, and the state after reset. -/

namespace Sys2Proof.Machine

/-- Data memory (R34, R53): the populated addresses with their words, in strictly rising order of the
address. An address that is not listed is unpopulated; a listed word may be 0, because storing 0 populates
(R53), so an entry is never equal to what an unlisted address is (log entry 5). -/
abbrev Memory := List (Addr × Word)

/-- The Label Table (R33): names with the index of the slot that defines them, in rising order of the
index, each name once (log entry 6). -/
abbrev LabelTable := List (Token × Nat)

/-- The non-fatal conditions, which the diagnostic log records (R161 codes 1 and 2). -/
inductive DiagCode where
  | unknownInstruction
  | labelNotFound
deriving DecidableEq, Repr

/-- A diagnostic record (R37). -/
structure Diag where
  code  : DiagCode
  index : Nat
  token : Token
deriving DecidableEq, Repr

/-- The record of the fatal Malformed Operand condition (R39); `opcode = none` is the empty slot's. -/
structure FaultRecord where
  index  : Nat
  opcode : Option Token
  reason : MalformedReason
deriving DecidableEq, Repr

/-- The state record of R21, and nothing else. -/
structure State where
  /-- The loaded slots; immutable after reset (R32). -/
  prog : List TokenLine
  /-- The Label Table; immutable after reset (R33). -/
  labels : LabelTable
  /-- The program counter, an index into `prog`, unbounded (R27). -/
  pc : Nat
  /-- The 32 general registers; none is hardwired (R22, R23). -/
  x : Vector Word 32
  /-- Data memory (R34). -/
  mem : Memory
  /-- "instructions executed" (R35). -/
  instructionCount : Nat
  /-- "cycles elapsed (one per non-label instruction processed)" (R35). -/
  cycleCount : Nat
  /-- "memory accesses (one per load or store)" (R35). -/
  memoryAccesses : Nat
  /-- The diagnostic log, append-only (R37). -/
  diags : List Diag
  /-- The fault record, none until a Malformed Operand (R39). -/
  fault : Option FaultRecord
deriving DecidableEq, Repr

/-- The three states of the engine (R38). -/
inductive Status where
  | running
  | halted
  | faulted
deriving DecidableEq, Repr

/-- The reasons for which a step would stop the machine outside its own state. There is none: the one fatal
condition of the block, Malformed Operand, is a state the machine enters (R164), with its record in
`State.fault`, and every address, register and program counter is legal (R57, R165). Nothing raises a
`Fault`, which is safe: no behaviour is cut off by one (log entry 2). -/
inductive Fault where
deriving DecidableEq, Repr

/-- The reasons for which an instruction has no meaning in the model. -/
inductive Refusal where
  /-- Raised by an arm of `exec` whose instruction has no meaning yet; safe, since the run stops. No arm
  raises it: all nine instructions have their meaning. -/
  | notModelled (mnemonic : String)
deriving DecidableEq, Repr

/-- The state after reset (R41), with the program the host supplies being the empty one: the block has no
program of its own, and `State.load` is the reset with any other (R190; log entry 4). -/
def State.reset : State where
  prog := []
  labels := []
  pc := Config.entrySlot
  x := Vector.replicate 32 Config.resetRegister
  mem := []
  instructionCount := 0
  cycleCount := 0
  memoryAccesses := 0
  diags := []
  fault := none

end Sys2Proof.Machine
end

