-- ==== Sys2Proof/Machine/Ops.lean ====
section
/-! DEFINITION. The named operations over registers, memory, counters, the log and the fault record
(`00_scope.md` R10, R11; `20_memory.md` R52, R53; `40_dispatch.md` R104 to R107; `60_exceptions.md` R161 to
R164), and the engine's status (R38). -/

namespace Sys2Proof.Machine

/-! ### Registers (R10, R22, R23) -/

/-- `x[r]`. -/
def State.readReg (s : State) (r : RegIdx) : Word := s.x[r]

/-- `x[r] <- v`; register 0 is an ordinary register (R23). -/
def State.writeReg (s : State) (r : RegIdx) (v : Word) : State := { s with x := s.x.set r v }

/-! ### Data memory (R34, R52, R53) -/

/-- The canonical form: addresses strictly rising (R67; log entry 5). -/
abbrev Memory.wf (m : Memory) : Prop := m.Pairwise (fun p q => p.1 < q.1)

/-- The word at `a`, or none where `a` is not in the populated set. -/
def Memory.lookup : Memory → Addr → Option Word
  | [], _ => none
  | (b, w) :: rest, a => if a = b then some w else Memory.lookup rest a

/-- `mem[a := v]`, kept in rising order of the address; storing 0 populates too (R53). -/
def Memory.insert : Memory → Addr → Word → Memory
  | [], a, v => [(a, v)]
  | (b, w) :: rest, a, v =>
    if a < b then (a, v) :: (b, w) :: rest
    else if a = b then (a, v) :: rest
    else (b, w) :: Memory.insert rest a v

/-- The populated set in address order (R34, R67). -/
def Memory.populated (m : Memory) : List Addr := m.map Prod.fst

/-- `MemRead(a, 1)`: the stored word, or 0 where `a` is unpopulated; it changes nothing (R52). -/
def State.memRead (s : State) (a : Addr) : Word := (s.mem.lookup a).getD Config.unpopulatedWord

/-- `MemWrite(a, 1, v)` (R53). -/
def State.memWrite (s : State) (a : Addr) (v : Word) : State := { s with mem := s.mem.insert a v }

/-! ### Counters, program counter, log (R11, R35, R37) -/

/-- `memory_accesses <- memory_accesses + 1`, done by the handlers of `LW` and `SW` (R116). -/
def State.countAccess (s : State) : State := { s with memoryAccesses := s.memoryAccesses + 1 }

/-- `pc <- t`. -/
def State.setPc (s : State) (t : Nat) : State := { s with pc := t }

/-- `cycle_count <- cycle_count + 1` (R114). -/
def State.countCycle (s : State) : State := { s with cycleCount := s.cycleCount + 1 }

/-- `instruction_count <- instruction_count + 1` (R115). -/
def State.countInstruction (s : State) : State := { s with instructionCount := s.instructionCount + 1 }

/-- `report`: appends one diagnostic record (R11, R166). -/
def State.report (s : State) (c : DiagCode) (index : Nat) (tok : Token) : State :=
  { s with diags := s.diags ++ [{ code := c, index := index, token := tok }] }

/-- What the engine does when a handler has returned `next`: both counters and then the pc (R104). -/
def State.retire (s : State) (next : Nat) : Host.Outcome State Fault Refusal :=
  .next ((s.countCycle.countInstruction).setPc next)

/-! ### The three slot classes that are no instruction (R105, R106, R107) -/

/-- A Label Definition executes as a skip: no counter, no log, no register (R105). -/
def State.skipLabel (s : State) : State := s.setPc (s.pc + 1)

/-- An Unknown Instruction is reported and skipped; it counts a cycle and no instruction (R106, R162). -/
def State.skipUnknown (s : State) (opcode : Token) : State :=
  ((s.report .unknownInstruction s.pc opcode).countCycle).setPc (s.pc + 1)

/-- `raise MalformedOperand`: the ONE abnormal event that ends normal sequencing. It sets the fault record
and changes nothing else, the pc included; there is no handler and no return (R160, R164, R168, R169). -/
def State.raiseMalformed (s : State) (opcode : Option Token) (r : MalformedReason) : State :=
  { s with fault := some { index := s.pc, opcode := opcode, reason := r } }

/-! ### Codes and status (R38, R161) -/

/-- The numeric code of a non-fatal condition (R161). -/
def DiagCode.number : DiagCode → Nat
  | .unknownInstruction => 1
  | .labelNotFound      => 2

/-- The numeric code of the fatal condition, MalformedOperand (R161). -/
def malformedOperandCode : Nat := 3

/-- `status(s)`, a function of the fault record, the pc and the program's length (R38). -/
def State.status (s : State) : Status :=
  match s.fault with
  | some _ => .faulted
  | none => if s.pc < s.prog.length then .running else .halted

end Sys2Proof.Machine
end

