-- ==== Sys2Proof/Machine/Labels.lean ====
section
/-! DEFINITION. The Label Table Builder, label resolution, and the reset with a program
(`40_dispatch.md` R100 to R102, R110 to R113; `70_reset_and_hazards.md` R190, R191). -/

namespace Sys2Proof.Machine

/-- `L[name := i]`: a later definition of a name replaces the earlier one (R101). Names are compared as exact
strings (R102). -/
def LabelTable.define (L : LabelTable) (name : Token) (i : Nat) : LabelTable :=
  L.filter (fun e => e.1 ≠ name) ++ [(name, i)]

/-- `labels[name]`, or none where the name is not defined. -/
def LabelTable.index? : LabelTable → Token → Option Nat
  | [], _ => none
  | (n, i) :: rest, name => if name = n then some i else LabelTable.index? rest name

/-- The effect of one slot, at index `i`, on the table being built (R100). -/
def LabelTable.scan (L : LabelTable) (i : Nat) (line : TokenLine) : LabelTable :=
  match (decode line).labelName? with
  | some name => L.define name i
  | none => L

/-- The builder's pass over the slots from index `i` on (R100). -/
def scanLabels : Nat → LabelTable → List TokenLine → LabelTable
  | _, L, [] => L
  | i, L, line :: rest => scanLabels (i + 1) (L.scan i line) rest

/-- `BuildLabels(prog)` (R100). -/
def buildLabels (prog : List TokenLine) : LabelTable := scanLabels 0 [] prog

/-- `resolve(tok, i)` (R110): a numeral names a slot directly and comes before the Label Table (R111); an
undefined label is reported and falls back to `i` itself (R112). It gives the next pc and the state with the
log it leaves. -/
def resolve (tok : Token) (i : Nat) (s : State) : Nat × State :=
  if isNumeral tok then (natval tok, s)
  else
    match s.labels.index? tok with
    | some n => (n, s)
    | none => (i, s.report .labelNotFound i tok)

/-- `Load(prog)`, the block's only reset (R190): the program and its Label Table, every other element as at
reset. Nothing of an earlier run survives (R191). -/
def State.load (prog : List TokenLine) : State :=
  { State.reset with prog := prog, labels := buildLabels prog }

/-- `l` with the element at index `i` set to `a`, and with `fill` in the places before `i` that `l` lacks. -/
def placeAt {α : Type} (fill a : α) : Nat → List α → List α
  | 0, [] => [a]
  | 0, _ :: rest => a :: rest
  | i + 1, [] => fill :: placeAt fill a i []
  | i + 1, b :: rest => b :: placeAt fill a i rest

/-- The state with `line` as the slot its next step fetches: the slot at the pc, the Label Table of the program
so changed, and no fault record (log entry 7). -/
def State.placeLine (s : State) (line : TokenLine) : State :=
  let prog := placeAt [] line s.pc s.prog
  { s with prog := prog, labels := buildLabels prog, fault := none }

end Sys2Proof.Machine
end

