-- ==== Sys2Proof/Machine/Operands.lean ====
section
/-! DEFINITION. How operand values are formed: the readings of a bit vector (`00_scope.md` R9), the effective
address (`20_memory.md` R51), the return address (`43_control.md` R154) and the redirect to a label operand. -/

namespace Sys2Proof.Machine

/-- `uval(v)` (R9). -/
def uval (v : Word) : Int := v.toNat

/-- `sval(v)`: the two's-complement value (R9). -/
def sval (v : Word) : Int := v.toInt

/-- `wrap(n)`: the word whose `uval` is `n mod 2^32` (R9). -/
def wrap (n : Int) : Word := BitVec.ofInt 32 n

/-- `v[hi:lo]` (R9). No instruction of this block takes part of a word; it is defined, like the two
extensions below, because R9 defines it. -/
def bits {w : Nat} (v : BitVec w) (hi lo : Nat) : BitVec (hi - lo + 1) := v.extractLsb hi lo

/-- `sext_N(v)` (R9). -/
def sext {w : Nat} (n : Nat) (v : BitVec w) : BitVec n := v.signExtend n

/-- `zext_N(v)` (R9). -/
def zext {w : Nat} (n : Nat) (v : BitVec w) : BitVec n := v.zeroExtend n

/-- `EA := sval(x[rs1]) + imm`, an exact integer that is never reduced (R51, R142). -/
def State.effectiveAddr (s : State) (rs1 : RegIdx) (offset : Int) : Addr := sval (s.readReg rs1) + offset

/-- The return address of a `JAL` at slot `i`: the following slot's index (R154). -/
def returnAddress (i : Nat) : Word := wrap ((i : Int) + 1)

/-- A redirect to a label operand: the resolved index becomes the pc, with no further +1 (R109). -/
def State.redirect (s : State) (target : Token) : Host.Outcome State Fault Refusal :=
  (resolve target s.pc s).2.retire (resolve target s.pc s).1

/-- The default advance, `next = i + 1` (R109). -/
def State.advance (s : State) : Host.Outcome State Fault Refusal := s.retire (s.pc + 1)

end Sys2Proof.Machine
end

