-- ==== Sys2Proof/Machine/Flags.lean ====
section
/-! DEFINITION. The block has no flags, condition codes or predicate registers (`10_state.md` R29). Its one
condition is the comparison `BEQ` makes. -/

namespace Sys2Proof.Machine

/-- The branch condition: bitwise equality of two registers (R9, R150, R153). -/
def State.regsEqual (s : State) (rs1 rs2 : RegIdx) : Bool := s.readReg rs1 == s.readReg rs2

end Sys2Proof.Machine
end

