-- ==== Sys2Proof/Machine/Alu.lean ====
section
/-! DEFINITION. The ALU instructions ADD, SUB, ADDI and LI (`41_alu.md` R130 to R134). Every result is the
exact sum or difference of signed values, reduced by `wrap`; overflow is never detected. -/

namespace Sys2Proof.Machine

/-- R130. -/
def execAdd (rd rs1 rs2 : RegIdx) (s : State) : Host.Outcome State Fault Refusal :=
  (s.writeReg rd (wrap (sval (s.readReg rs1) + sval (s.readReg rs2)))).advance

/-- R133. -/
def execSub (rd rs1 rs2 : RegIdx) (s : State) : Host.Outcome State Fault Refusal :=
  (s.writeReg rd (wrap (sval (s.readReg rs1) - sval (s.readReg rs2)))).advance

/-- R131. -/
def execAddi (rd rs1 : RegIdx) (imm : Int) (s : State) : Host.Outcome State Fault Refusal :=
  (s.writeReg rd (wrap (sval (s.readReg rs1) + imm))).advance

/-- R132. -/
def execLi (rd : RegIdx) (imm : Int) (s : State) : Host.Outcome State Fault Refusal :=
  (s.writeReg rd (wrap imm)).advance

end Sys2Proof.Machine
end

