-- ==== Sys2Proof/Machine/Control.lean ====
section
/-! DEFINITION. BEQ, JAL and J (`43_control.md` R150 to R154). -/

namespace Sys2Proof.Machine

/-- R150: the target is resolved only when the branch is taken (R113). -/
def execBeq (rs1 rs2 : RegIdx) (target : Token) (s : State) : Host.Outcome State Fault Refusal :=
  if s.regsEqual rs1 rs2 then s.redirect target else s.advance

/-- R151: the link value is written before the target is resolved. -/
def execJal (rd : RegIdx) (target : Token) (s : State) : Host.Outcome State Fault Refusal :=
  (s.writeReg rd (returnAddress s.pc)).redirect target

/-- R152: no register is written. -/
def execJ (target : Token) (s : State) : Host.Outcome State Fault Refusal := s.redirect target

end Sys2Proof.Machine
end

