-- ==== Sys2Proof/Machine/LoadStore.lean ====
section
/-! DEFINITION. LW and SW (`42_load_store.md` R140 to R142). -/

namespace Sys2Proof.Machine

/-- R140: the address is formed from the old `x[rs1]`, so `rd = rs1` is allowed. -/
def execLw (rd : RegIdx) (offset : Int) (rs1 : RegIdx) (s : State) : Host.Outcome State Fault Refusal :=
  ((s.writeReg rd (s.memRead (s.effectiveAddr rs1 offset))).countAccess).advance

/-- R141. -/
def execSw (rs2 : RegIdx) (offset : Int) (rs1 : RegIdx) (s : State) : Host.Outcome State Fault Refusal :=
  ((s.memWrite (s.effectiveAddr rs1 offset) (s.readReg rs2)).countAccess).advance

end Sys2Proof.Machine
end

