-- ==== Sys2Proof/Machine/Dispatch.lean ====
section
/-! DEFINITION. The dispatch of a decoded instruction to its meaning (`40_dispatch.md` R108). -/

namespace Sys2Proof.Machine

/-- The whole effect of the step of R104 on a slot that decodes to `i`, the counters and the pc included. The
handler's slot index is the pc, which holds the index of the slot being executed (R27). -/
def exec (i : Instr) (s : State) : Host.Outcome State Fault Refusal :=
  match i with
  | .add rd rs1 rs2 => Sys2Proof.Machine.execAdd rd rs1 rs2 s
  | .sub rd rs1 rs2 => Sys2Proof.Machine.execSub rd rs1 rs2 s
  | .addi rd rs1 imm => Sys2Proof.Machine.execAddi rd rs1 imm s
  | .li rd imm => Sys2Proof.Machine.execLi rd imm s
  | .lw rd offset rs1 => Sys2Proof.Machine.execLw rd offset rs1 s
  | .sw rs2 offset rs1 => Sys2Proof.Machine.execSw rs2 offset rs1 s
  | .beq rs1 rs2 target => Sys2Proof.Machine.execBeq rs1 rs2 target s
  | .jal rd target => Sys2Proof.Machine.execJal rd target s
  | .j target => Sys2Proof.Machine.execJ target s

end Sys2Proof.Machine
end

