-- ==== Sys2Proof/Machine/Engine.lean ====
section
/-! DEFINITION. The Execution Engine (`40_dispatch.md` R103 to R107): fetch, decode, and the four arms of one
step. -/

namespace Sys2Proof.Machine

/-- The slot at the program counter (R104). A Running engine always has one; the empty slot stands where there
is none and is never used then. -/
def State.fetch (s : State) : TokenLine := s.prog.getD s.pc []

/-- The four arms of R104. -/
def execSlot (c : Slot) (s : State) : Host.Outcome State Fault Refusal :=
  match c with
  | .labelDef _         => .next s.skipLabel
  | .unknown opcode     => .next (s.skipUnknown opcode)
  | .malformed opcode r => .next (s.raiseMalformed opcode r)
  | .instr i            => exec i s

/-- The host's `Step` action: R104 once if Running, and no effect in Halted or Faulted (R103, R120; log
entry 2). -/
def engineStep (s : State) : Host.Outcome State Fault Refusal :=
  match s.status with
  | .running => execSlot (decode s.fetch) s
  | .halted  => .next s
  | .faulted => .next s

end Sys2Proof.Machine
end

