-- ==== Sys2Proof/Machine/Step.lean ====
section
/-! DEFINITION. One step of the machine, and the placing of an instruction where the next step fetches it. -/

namespace Sys2Proof.Machine

/-- One step (R104, R120). -/
def step (s : State) : Host.Outcome State Fault Refusal := engineStep s

/-- `s` with the slot whose text is the table word `w` where `step` fetches next (log entries 7 and 8). -/
def State.withFetchWord (s : State) (nbits w : Nat) : State := s.placeLine (lineOfTableWord nbits w)

end Sys2Proof.Machine
end

