-- ==== Sys2Proof/Machine/HostActions.lean ====
section
/-! DEFINITION. The interface to the host (`40_dispatch.md` R120, R121; `20_memory.md` R67): its four actions
and the snapshot. -/

namespace Sys2Proof.Machine

/-- The host's four actions (R120); no other input reaches the block (R171). -/
inductive HostAction where
  | load (prog : List TokenLine)
  | step
  | snapshot
  | stop
deriving DecidableEq, Repr

/-- What a snapshot holds (R121). -/
structure Snapshot where
  registers        : Vector Int 32
  memory           : List (Addr × Word)
  instructionCount : Nat
  cycleCount       : Nat
  memoryAccesses   : Nat
  pc               : Nat
  status           : Status
  diags            : List Diag
  fault            : Option FaultRecord
deriving DecidableEq, Repr

/-- The observation of R121: registers in index order, read as signed, and the populated addresses in address
order (R67). -/
def State.snapshot (s : State) : Snapshot where
  registers := s.x.map sval
  memory := s.mem
  instructionCount := s.instructionCount
  cycleCount := s.cycleCount
  memoryAccesses := s.memoryAccesses
  pc := s.pc
  status := s.status
  diags := s.diags
  fault := s.fault

/-- The state an action leaves (R120): `Load` resets, `Step` steps, `Snapshot` and `Stop` change nothing. -/
def hostAct (a : HostAction) (s : State) : State :=
  match a with
  | .load prog => State.load prog
  | .step =>
    match step s with
    | .next t    => t
    | .fault _   => s
    | .refused _ => s
  | .snapshot => s
  | .stop     => s

end Sys2Proof.Machine
end

