-- ==== Sys2Proof/Safety.lean ====
section
/-! DEFINITION. The terms in which claims about a run are stated: the invariant of the block's state, and the
premises the spec asks claims to carry (`70_reset_and_hazards.md` R193; `92_eei_decisions.md` D10;
`93_implementation_defined.md` U1). -/

namespace Sys2Proof.Machine

/-- No fault is recorded: a claim about a program's result takes this as a premise (R193). -/
def State.faultFree (s : State) : Bool := s.fault.isNone

/-- Every slot of the program decodes without a Malformed Operand, the premise D10 asks for. -/
def everySlotDecodes (prog : List TokenLine) : Bool :=
  prog.all fun line =>
    match decode line with
    | .labelDef _    => true
    | .unknown _     => true
    | .malformed _ _ => false
    | .instr _       => true

/-- The names of the program's label definitions, in slot order. -/
def labelNames (prog : List TokenLine) : List Token := prog.filterMap fun line => (decode line).labelName?

/-- No label is defined twice, the premise U1 asks for (log entry 11). -/
def distinctLabels (prog : List TokenLine) : Bool := decide (labelNames prog).Nodup

/-- How many records of the log have a given code. -/
def countDiags (c : DiagCode) (ds : List Diag) : Nat := ds.countP (fun d => d.code = c)

/-- The slot a diagnostic names really raises it: an Unknown Instruction slot with that opcode token, or a
control transfer whose target is that token, no numeral and no label (R112, R161). -/
def State.explainsDiag (s : State) (d : Diag) : Prop :=
  ∃ line, s.prog[d.index]? = some line ∧
    match d.code with
    | .unknownInstruction => decode line = .unknown d.token
    | .labelNotFound =>
      (∃ i, decode line = .instr i ∧ i.target? = some d.token) ∧
        isNumeral d.token = false ∧ s.labels.index? d.token = none

/-- The fault record names the slot at the pc and that slot's decode result (R164). -/
def State.explainsFault (s : State) (f : FaultRecord) : Prop :=
  f.index = s.pc ∧ ∃ line, s.prog[s.pc]? = some line ∧ decode line = .malformed f.opcode f.reason

/-- The invariant of the block: what holds after every `Load` and is kept by every step. -/
structure State.Inv (s : State) : Prop where
  /-- Memory is in its canonical form (R67). -/
  memory : s.mem.wf
  /-- The Label Table is the one built from the program (R33, R100). -/
  labels : s.labels = buildLabels s.prog
  /-- Cycles exceed instructions by the Unknown Instruction steps, each of which the log records (R117). -/
  cycles : s.cycleCount = s.instructionCount + countDiags .unknownInstruction s.diags
  /-- A memory access and a Label Not Found each belong to an executed instruction, never to the same one. -/
  accesses : s.memoryAccesses + countDiags .labelNotFound s.diags ≤ s.instructionCount
  /-- Every diagnostic is one its slot raises. -/
  diags : ∀ d ∈ s.diags, s.explainsDiag d
  /-- A recorded fault is the one the slot at the pc raises. -/
  fault : ∀ f, s.fault = some f → s.explainsFault f

end Sys2Proof.Machine
end

