-- ==== Sys2Proof/Certificates/Slice0/Obligations.lean ====
section
/-! DEFINITION. The statements for the provers, and before them the vocabulary they share: the operand
syntaxes, the tables and the effects, written from the spec's own words and not from the decoder's code. -/

namespace Sys2Proof.Claims

open Sys2Proof.Machine

/-! ### Operand syntax and tables -/

/-- R74: `tok` is `P D` with `P` empty, `x` or `X` and `D` a numeral of value `n`. -/
def RegisterToken (tok : Token) (n : Nat) : Prop :=
  ∃ p d : Token, tok = p ++ d ∧ (p = "" ∨ p = "x" ∨ p = "X") ∧ isNumeral d = true ∧ natval d = n

/-- R75: `tok` is an optional `+` or `-` and then a numeral, with the signed value `n`. -/
def ImmediateToken (tok : Token) (n : Int) : Prop :=
  ∃ g d : Token, tok = g ++ d ∧ isNumeral d = true ∧
    (((g = "" ∨ g = "+") ∧ n = (natval d : Int)) ∨ (g = "-" ∧ n = -(natval d : Int)))

/-- `tok` is a legal operand of class `c` (R74, R75, R76). -/
def Fits : FieldClass → Token → Prop
  | .reg, tok   => ∃ r : RegIdx, RegisterToken tok r
  | .imm, tok   => ∃ n, ImmediateToken tok n
  | .label, _   => True

/-- Every slot with this mnemonic, in any case, whose operands fit none of the formats is a Malformed Operand that
records the opcode token as written. -/
def RejectsAllBut (mnemonic : Token) (formats : List (List FieldClass)) : Prop :=
  ∀ (op : Token) (ops : List Token), lower op = mnemonic →
    (∀ cs ∈ formats, ¬ List.Forall₂ Fits cs ops) → ∃ r, decode (op :: ops) = .malformed (some op) r

/-- R73: MNEMONICS. -/
def mnemonics : List Token := ["add", "addi", "sub", "li", "lw", "sw", "beq", "jal", "j"]

/-- R80: the operand counts accepted per mnemonic. -/
def arity : Tag → List Nat
  | .add => [3] | .sub => [3] | .addi => [3] | .lw => [3] | .sw => [3] | .beq => [3]
  | .li => [2] | .jal => [1, 2] | .j => [1]

/-- R81: the check of one operand of a class, `BAD_REGISTER` before `REGISTER_RANGE`. -/
def operandFault : FieldClass → Token → Option MalformedReason
  | .reg, tok =>
    if isRegTok tok = false then some .badRegister
    else if 32 ≤ regval tok then some .registerRange else none
  | .imm, tok => if isInt tok = false then some .badImmediate else none
  | .label, _ => none

/-- R81: the loop over the operands, left to right, stopping at the first fault. -/
def firstFault : List FieldClass → List Token → Option MalformedReason
  | c :: cs, tok :: toks =>
    match operandFault c tok with
    | some r => some r
    | none   => firstFault cs toks
  | _, _ => none

/-! ### Effects and frames -/

/-- What every executed instruction leaves alone (the program, the Label Table, the fault record) and counts (one
instruction, one cycle) (R104). -/
def Retired (s t : State) : Prop :=
  t.prog = s.prog ∧ t.labels = s.labels ∧ t.fault = s.fault ∧
  t.instructionCount = s.instructionCount + 1 ∧ t.cycleCount = s.cycleCount + 1

/-- Every address of data memory is populated as before, with the same word. -/
def MemoryUnchanged (s t : State) : Prop := ∀ a, t.mem.lookup a = s.mem.lookup a

/-- `rd` holds `v` and every other register what it held. -/
def OnlyRegister (s t : State) (rd : RegIdx) (v : Word) : Prop :=
  ∀ r, t.readReg r = if r = rd then v else s.readReg r

/-- An ALU instruction: one register, the default advance, and nothing else. -/
def AluEffect (s t : State) (rd : RegIdx) (v : Word) : Prop :=
  Retired s t ∧ t.pc = s.pc + 1 ∧ OnlyRegister s t rd v ∧ MemoryUnchanged s t ∧
  t.memoryAccesses = s.memoryAccesses ∧ t.diags = s.diags

/-- A control transfer touches neither memory nor its access count. -/
def ControlFrame (s t : State) : Prop :=
  Retired s t ∧ MemoryUnchanged s t ∧ t.memoryAccesses = s.memoryAccesses

/-- `n` is what a target resolves to at the slot `s.pc` (R110 to R112). -/
def ResolvesTo (s : State) (tok : Token) (n : Nat) : Prop :=
  if isNumeral tok = true then n = natval tok
  else match s.labels.index? tok with
    | some k => n = k
    | none   => n = s.pc

/-- What resolving a target adds to the log (R110, R163). -/
def LogsResolution (s t : State) (tok : Token) : Prop :=
  t.diags = if isNumeral tok = false ∧ s.labels.index? tok = none
    then s.diags ++ [⟨.labelNotFound, s.pc, tok⟩] else s.diags

/-- A redirect to `tok` (R109): the pc is the resolved index, and only an undefined label is logged. -/
def RedirectEffect (s t : State) (tok : Token) : Prop := ResolvesTo s tok t.pc ∧ LogsResolution s t tok

/-- The instructions that redirect to `tok` in `s`: J, JAL, and BEQ when taken (R113). -/
def Redirects (s : State) (i : Instr) (tok : Token) : Prop :=
  i = .j tok ∨ (∃ rd, i = .jal rd tok) ∨
  ∃ rs1 rs2, i = .beq rs1 rs2 tok ∧ s.readReg rs1 = s.readReg rs2

/-- What a program can tell apart in a state (R40): two states related so differ at most in the counters, the log,
and in whether an address that reads as 0 is populated. -/
def SameToPrograms (s t : State) : Prop :=
  s.prog = t.prog ∧ s.labels = t.labels ∧ s.pc = t.pc ∧ s.fault = t.fault ∧
  (∀ r, s.readReg r = t.readReg r) ∧ ∀ a, s.memRead a = t.memRead a

/-- The classes of the slots the engine processes in its next `k` steps. -/
def slotsStepped : Nat → State → List Slot
  | 0, _ => []
  | k + 1, s =>
    match s.status, step s with
    | .running, .next t => decode s.fetch :: slotsStepped k t
    | _, _ => []

/-- The slot is a decoded instruction. -/
def isInstruction (c : Slot) : Bool := c.instr?.isSome

/-- The slot is an Unknown Instruction. -/
def isUnknown : Slot → Bool
  | .labelDef _    => false
  | .unknown _     => true
  | .malformed _ _ => false
  | .instr _       => false

/-- The slot is an LW or an SW. -/
def isMemoryAccess (c : Slot) : Bool :=
  match c.instr? with
  | some i => i.tag == .lw || i.tag == .sw
  | none   => false

end Sys2Proof.Claims

open Sys2Proof Sys2Proof.Machine Sys2Proof.Claims

/-! ### The nine instructions: encoding, rejected operands, completion, result and frame -/

/-- R130. -/
def Obligations.AddWritesWrappedSum : Prop :=
  (∀ (op t1 t2 t3 : Token) (rd rs1 rs2 : RegIdx), lower op = "add" →
    RegisterToken t1 rd → RegisterToken t2 rs1 → RegisterToken t3 rs2 →
    decode [op, t1, t2, t3] = .instr (.add rd rs1 rs2)) ∧
  RejectsAllBut "add" [[.reg, .reg, .reg]] ∧
  ∀ (rd rs1 rs2 : RegIdx) (s : State), ∃ t, exec (.add rd rs1 rs2) s = .next t ∧
    AluEffect s t rd (wrap (sval (s.readReg rs1) + sval (s.readReg rs2)))

/-- R133. -/
def Obligations.SubWritesWrappedDifference : Prop :=
  (∀ (op t1 t2 t3 : Token) (rd rs1 rs2 : RegIdx), lower op = "sub" →
    RegisterToken t1 rd → RegisterToken t2 rs1 → RegisterToken t3 rs2 →
    decode [op, t1, t2, t3] = .instr (.sub rd rs1 rs2)) ∧
  RejectsAllBut "sub" [[.reg, .reg, .reg]] ∧
  ∀ (rd rs1 rs2 : RegIdx) (s : State), ∃ t, exec (.sub rd rs1 rs2) s = .next t ∧
    AluEffect s t rd (wrap (sval (s.readReg rs1) - sval (s.readReg rs2)))

/-- R131. -/
def Obligations.AddiAddsUnboundedImmediate : Prop :=
  (∀ (op t1 t2 t3 : Token) (rd rs1 : RegIdx) (imm : Int), lower op = "addi" →
    RegisterToken t1 rd → RegisterToken t2 rs1 → ImmediateToken t3 imm →
    decode [op, t1, t2, t3] = .instr (.addi rd rs1 imm)) ∧
  RejectsAllBut "addi" [[.reg, .reg, .imm]] ∧
  ∀ (rd rs1 : RegIdx) (imm : Int) (s : State), ∃ t, exec (.addi rd rs1 imm) s = .next t ∧
    AluEffect s t rd (wrap (sval (s.readReg rs1) + imm))

/-- R132. -/
def Obligations.LiLoadsWrappedImmediate : Prop :=
  (∀ (op t1 t2 : Token) (rd : RegIdx) (imm : Int), lower op = "li" →
    RegisterToken t1 rd → ImmediateToken t2 imm → decode [op, t1, t2] = .instr (.li rd imm)) ∧
  RejectsAllBut "li" [[.reg, .imm]] ∧
  ∀ (rd : RegIdx) (imm : Int) (s : State), ∃ t, exec (.li rd imm) s = .next t ∧
    AluEffect s t rd (wrap imm)

/-- R140: the word at the effective address, or 0 where it is unpopulated; no address is populated by it. -/
def Obligations.LwLoadsWordOrZero : Prop :=
  (∀ (op t1 t2 t3 : Token) (rd rs1 : RegIdx) (offset : Int), lower op = "lw" →
    RegisterToken t1 rd → ImmediateToken t2 offset → RegisterToken t3 rs1 →
    decode [op, t1, t2, t3] = .instr (.lw rd offset rs1)) ∧
  RejectsAllBut "lw" [[.reg, .imm, .reg]] ∧
  ∀ (rd rs1 : RegIdx) (offset : Int) (s : State), ∃ t, exec (.lw rd offset rs1) s = .next t ∧
    Retired s t ∧ t.pc = s.pc + 1 ∧ MemoryUnchanged s t ∧ t.diags = s.diags ∧
    t.memoryAccesses = s.memoryAccesses + 1 ∧
    OnlyRegister s t rd ((s.mem.lookup (sval (s.readReg rs1) + offset)).getD 0)

/-- R141: the word at the effective address becomes `x[rs2]`, 0 included, and no other address changes. -/
def Obligations.SwStoresWordAtExactAddress : Prop :=
  (∀ (op t1 t2 t3 : Token) (rs2 rs1 : RegIdx) (offset : Int), lower op = "sw" →
    RegisterToken t1 rs2 → ImmediateToken t2 offset → RegisterToken t3 rs1 →
    decode [op, t1, t2, t3] = .instr (.sw rs2 offset rs1)) ∧
  RejectsAllBut "sw" [[.reg, .imm, .reg]] ∧
  ∀ (rs2 rs1 : RegIdx) (offset : Int) (s : State), ∃ t, exec (.sw rs2 offset rs1) s = .next t ∧
    s.effectiveAddr rs1 offset = sval (s.readReg rs1) + offset ∧
    (∀ a, t.mem.lookup a =
      if a = s.effectiveAddr rs1 offset then some (s.readReg rs2) else s.mem.lookup a) ∧
    Retired s t ∧ t.pc = s.pc + 1 ∧ (∀ r, t.readReg r = s.readReg r) ∧ t.diags = s.diags ∧
    t.memoryAccesses = s.memoryAccesses + 1

/-- R150. -/
def Obligations.BeqRedirectsExactlyWhenEqual : Prop :=
  (∀ (op t1 t2 label : Token) (rs1 rs2 : RegIdx), lower op = "beq" →
    RegisterToken t1 rs1 → RegisterToken t2 rs2 →
    decode [op, t1, t2, label] = .instr (.beq rs1 rs2 label)) ∧
  RejectsAllBut "beq" [[.reg, .reg, .label]] ∧
  ∀ (rs1 rs2 : RegIdx) (label : Token) (s : State), ∃ t, exec (.beq rs1 rs2 label) s = .next t ∧
    ControlFrame s t ∧ (∀ r, t.readReg r = s.readReg r) ∧
    (s.readReg rs1 = s.readReg rs2 → RedirectEffect s t label) ∧
    (s.readReg rs1 ≠ s.readReg rs2 → t.pc = s.pc + 1 ∧ t.diags = s.diags)

/-- R151 with the return address of R154, which is the spec's own choice (D6; log entry 12). -/
def Obligations.JalLinksFollowingSlotAndRedirects : Prop :=
  (∀ op label : Token, lower op = "jal" → decode [op, label] = .instr (.jal 1 label)) ∧
  (∀ (op t1 label : Token) (rd : RegIdx), lower op = "jal" → RegisterToken t1 rd →
    decode [op, t1, label] = .instr (.jal rd label)) ∧
  RejectsAllBut "jal" [[.label], [.reg, .label]] ∧
  ∀ (rd : RegIdx) (label : Token) (s : State), ∃ t, exec (.jal rd label) s = .next t ∧
    ControlFrame s t ∧ RedirectEffect s t label ∧ OnlyRegister s t rd (wrap ((s.pc : Int) + 1))

/-- R152. -/
def Obligations.JRedirectsAndWritesNoRegister : Prop :=
  (∀ op label : Token, lower op = "j" → decode [op, label] = .instr (.j label)) ∧
  RejectsAllBut "j" [[.label]] ∧
  ∀ (label : Token) (s : State), ∃ t, exec (.j label) s = .next t ∧
    ControlFrame s t ∧ RedirectEffect s t label ∧ ∀ r, t.readReg r = s.readReg r

/-! ### Decoding -/

/-- The encoder is the model's canonical spelling (log entry 10). Decoding it gives the instruction back, whatever its
operands, and a well-formed instruction is encoded in tokens. -/
def Obligations.DecodeOfEncodeIsTheInstruction : Prop :=
  ∀ i : Instr, decode (encode i) = .instr i ∧ (i.wf = true → slotWf (encode i) = true)

/-- Slots written out by hand from `95_test_vectors.md` section 2 and from R78 decode as the spec says. -/
def Obligations.WrittenOutSlotsDecode : Prop :=
  decode ["ADD", "x1", "x2", "x3"] = .instr (.add 1 2 3) ∧
  decode ["sub", "x3", "X1", "2"] = .instr (.sub 3 1 2) ∧
  decode ["aDdI", "X1", "2", "-3"] = .instr (.addi 1 2 (-3)) ∧
  decode ["li", "x1", "+007"] = .instr (.li 1 7) ∧
  decode ["lw", "x8", "0", "x031"] = .instr (.lw 8 0 31) ∧
  decode ["sw", "x7", "-8", "x0"] = .instr (.sw 7 (-8) 0) ∧
  decode ["beq", "x1", "x2", "-1"] = .instr (.beq 1 2 "-1") ∧
  decode ["jal", "x5"] = .instr (.jal 1 "x5") ∧
  decode ["jal", "x5", "x6"] = .instr (.jal 5 "x6") ∧
  decode ["J", "Loop"] = .instr (.j "Loop")

/-- R73, D8: two opcode tokens that fold alike decode alike. -/
def Obligations.OpcodeMatchIgnoresCase : Prop :=
  ∀ (op op' : Token) (ops : List Token) (i : Instr), lower op = lower op' →
    (decode (op :: ops) = .instr i ↔ decode (op' :: ops) = .instr i)

/-- R71, D7: a slot is the definition of `name` exactly when it is the one token `name:`. -/
def Obligations.LabelDefinitionIsOneTokenWithFinalColon : Prop :=
  ∀ (line : TokenLine) (name : Token), decode line = .labelDef name ↔ line = [name ++ ":"]

/-- R84. -/
def Obligations.UnknownIsEveryOtherMnemonic : Prop :=
  (∀ (op : Token) (ops : List Token), decode (op :: ops) = .unknown op ↔
    (¬ (ops = [] ∧ ∃ name : Token, op = name ++ ":") ∧ lower op ∉ mnemonics)) ∧
  ∀ (line : TokenLine) (tok : Token), decode line = .unknown tok → ∃ ops, line = tok :: ops

/-- R80. -/
def Obligations.OperandCountFaultExactlyOutsideArity : Prop :=
  ∀ (m : Tag) (op : Token) (ops : List Token), lower op = m.mnemonic →
    (decode (op :: ops) = .malformed (some op) .operandCount ↔ ops.length ∉ arity m)

/-- R81, R82 and D24, the spec's own order: the leftmost operand fault of the format is the one reported, and a slot
with none is an instruction of its mnemonic; the empty slot is `EMPTY`. -/
def Obligations.LeftmostOperandFaultIsReported : Prop :=
  decode [] = .malformed none .empty ∧
  ∀ (m : Tag) (op : Token) (ops : List Token) (cs : List FieldClass), lower op = m.mnemonic →
    cs ∈ m.formats → cs.length = ops.length →
    match firstFault cs ops with
    | some r => decode (op :: ops) = .malformed (some op) r
    | none   => ∃ i, decode (op :: ops) = .instr i ∧ i.tag = m

/-! ### The engine -/

/-- A Running engine's step, by the class of the slot it fetches (the step and its four arms, `40_dispatch.md` section 2).
Two clauses rest on the spec's own decisions (log entry 15): an Unknown Instruction counts a cycle and no instruction
(D11), and a Malformed slot changes nothing but the fault record (D12). -/
def Obligations.StepRunsTheFetchedSlot : Prop :=
  ∀ (s : State) (line : TokenLine), s.fault = none → s.prog[s.pc]? = some line →
    (∀ name, decode line = .labelDef name → step s = .next { s with pc := s.pc + 1 }) ∧
    (∀ op, decode line = .unknown op → step s = .next { s with
      diags := s.diags ++ [⟨.unknownInstruction, s.pc, op⟩],
      cycleCount := s.cycleCount + 1, pc := s.pc + 1 }) ∧
    (∀ op r, decode line = .malformed op r → step s = .next { s with fault := some ⟨s.pc, op, r⟩ }) ∧
    ∀ i, decode line = .instr i → step s = exec i s ∧ ∃ t, exec i s = .next t ∧
      t.cycleCount = s.cycleCount + 1 ∧ t.instructionCount = s.instructionCount + 1

/-- R38, R103, R120: the status is a function of the fault record, the pc and the program's length, and a step of a
Halted or Faulted engine changes nothing. That such a step answers the same state is log entry 2. -/
def Obligations.OnlyRunningEngineChanges : Prop :=
  ∀ s : State,
    (s.fault ≠ none → s.status = .faulted ∧ step s = .next s) ∧
    (s.fault = none → s.prog.length ≤ s.pc → s.status = .halted ∧ step s = .next s) ∧
    (s.fault = none → s.pc < s.prog.length → s.status = .running)

/-- R119, R160, log entry 2: no state makes the machine stop outside its own state. -/
def Obligations.EveryStepAnswersNextState : Prop := ∀ s : State, ∃ t, step s = .next t

/-- Every step keeps the invariant of `Safety.lean`, from every state that meets it. -/
def Obligations.StepKeepsInvariant : Prop := ∀ s t : State, s.Inv → step s = .next t → t.Inv

/-- Every `Load` establishes the invariant, and reset is the `Load` of the empty program (log entry 4). -/
def Obligations.LoadEstablishesInvariant : Prop :=
  State.reset = State.load [] ∧ ∀ prog : List TokenLine, (State.load prog).Inv

/-- R41, R190, R191. The register, memory and counter values are the spec's own decision D13 (log entry 3). -/
def Obligations.LoadResetsEveryElement : Prop :=
  ∀ (prog : List TokenLine) (s t : State), t = hostAct (.load prog) s →
    t.prog = prog ∧ t.labels = buildLabels prog ∧ t.pc = 0 ∧ (∀ r, t.readReg r = 0) ∧
    (∀ a, t.mem.lookup a = none ∧ t.memRead a = 0) ∧ t.instructionCount = 0 ∧ t.cycleCount = 0 ∧
    t.memoryAccesses = 0 ∧ t.diags = [] ∧ t.fault = none ∧
    t.status = if prog = [] then .halted else .running

/-- R32, R33, R64: no step writes the instruction store or the Label Table. -/
def Obligations.ProgramAndLabelsNeverChange : Prop :=
  ∀ s t : State, step s = .next t → t.prog = s.prog ∧ t.labels = s.labels

/-- R35, R37, R166, R167: counters never decrease, the log is append-only, and a step raises at most one condition. -/
def Obligations.CountersAndLogOnlyGrowByOneCondition : Prop :=
  ∀ s t : State, step s = .next t →
    (s.instructionCount ≤ t.instructionCount ∧ t.instructionCount ≤ s.instructionCount + 1) ∧
    (s.cycleCount ≤ t.cycleCount ∧ t.cycleCount ≤ s.cycleCount + 1) ∧
    (s.memoryAccesses ≤ t.memoryAccesses ∧ t.memoryAccesses ≤ s.memoryAccesses + 1) ∧
    ∃ ds : List Diag, t.diags = s.diags ++ ds ∧ ds.length ≤ 1 ∧ (t.fault ≠ s.fault → ds = [])

/-- R116. -/
def Obligations.MemoryAccessesCountLoadsAndStores : Prop :=
  ∀ s t : State, step s = .next t → t.memoryAccesses =
    s.memoryAccesses + if s.status = .running ∧ isMemoryAccess (decode s.fetch) = true then 1 else 0

/-- R114 to R117, with the spec's decisions D11 and D12: over any run, of any program from any state, the counters count
the slots of their classes. -/
def Obligations.CountersCountTheSlotsOfARun : Prop :=
  ∀ (k : Nat) (s t : State), Host.Core.run Sys2Proof.core k s = .next t →
    t.instructionCount = s.instructionCount + (slotsStepped k s).countP isInstruction ∧
    t.cycleCount = s.cycleCount + (slotsStepped k s).countP isInstruction
      + (slotsStepped k s).countP isUnknown ∧
    t.memoryAccesses = s.memoryAccesses + (slotsStepped k s).countP isMemoryAccess

/-- R28. -/
def Obligations.ProgramCounterChangesExactlySo : Prop :=
  ∀ s t : State, step s = .next t →
    (s.status ≠ .running → t.pc = s.pc) ∧
    (s.status = .running →
      match decode s.fetch with
      | .labelDef _           => t.pc = s.pc + 1
      | .unknown _            => t.pc = s.pc + 1
      | .malformed _ _        => t.pc = s.pc
      | .instr (.add _ _ _)   => t.pc = s.pc + 1
      | .instr (.sub _ _ _)   => t.pc = s.pc + 1
      | .instr (.addi _ _ _)  => t.pc = s.pc + 1
      | .instr (.li _ _)      => t.pc = s.pc + 1
      | .instr (.lw _ _ _)    => t.pc = s.pc + 1
      | .instr (.sw _ _ _)    => t.pc = s.pc + 1
      | .instr (.beq a b tok) =>
        if s.readReg a = s.readReg b then ResolvesTo s tok t.pc else t.pc = s.pc + 1
      | .instr (.jal _ tok)   => ResolvesTo s tok t.pc
      | .instr (.j tok)       => ResolvesTo s tok t.pc) ∧
    (t.fault = none → t.prog.length ≤ t.pc → t.status = .halted)

/-- R164, R168 with the spec's decision D12: the fault record changes only at a Malformed slot, which changes nothing
else, and the engine then stays as it is. -/
def Obligations.MalformedOperandIsPreciseAndFinal : Prop :=
  ∀ s t : State, step s = .next t → t.fault ≠ s.fault →
    s.fault = none ∧ (∃ line op r, s.prog[s.pc]? = some line ∧ decode line = .malformed op r ∧
      t = { s with fault := some ⟨s.pc, op, r⟩ }) ∧ step t = .next t

/-! ### Labels and redirects -/

/-- R100: a name is bound to the index of the last slot that defines it, and to nothing where none does. -/
def Obligations.LabelTableBindsLastDefinition : Prop :=
  (∀ (prog : List TokenLine) (name : Token) (i : Nat), (buildLabels prog).index? name = some i ↔
    (∃ line, prog[i]? = some line ∧ decode line = .labelDef name) ∧
    ∀ (k : Nat) (line : TokenLine), i < k → prog[k]? = some line → decode line ≠ .labelDef name) ∧
  ∀ (prog : List TokenLine) (name : Token), (buildLabels prog).index? name = none ↔
    ∀ line ∈ prog, decode line ≠ .labelDef name

/-- R110, R163: every redirect resolves its target so, whichever instruction makes it; an undefined label is logged and
leaves the pc, and the instruction completes as usual. -/
def Obligations.RedirectResolvesItsTarget : Prop :=
  ∀ (s : State) (i : Instr) (tok : Token), Redirects s i tok → ∃ t, exec i s = .next t ∧
    (isNumeral tok = true → t.pc = natval tok ∧ t.diags = s.diags) ∧
    (isNumeral tok = false → ∀ n, s.labels.index? tok = some n → t.pc = n ∧ t.diags = s.diags) ∧
    (isNumeral tok = false → s.labels.index? tok = none →
      t.pc = s.pc ∧ t.diags = s.diags ++ [⟨.labelNotFound, s.pc, tok⟩] ∧
      t.cycleCount = s.cycleCount + 1 ∧ t.instructionCount = s.instructionCount + 1 ∧
      ∀ rd, i = .jal rd tok → t.readReg rd = returnAddress s.pc)

/-- R100, R105, R110: a jump to a label lands on its last definition slot, which the next step skips uncounted. -/
def Obligations.JumpLandsOnDefinitionAndSkipsIt : Prop :=
  ∀ (s : State) (n : Nat) (line : TokenLine) (name : Token),
    s.fault = none → s.labels = buildLabels s.prog → isNumeral name = false →
    s.prog[n]? = some line → decode line = .labelDef name →
    (∀ (k : Nat) (l : TokenLine), n < k → s.prog[k]? = some l → decode l ≠ .labelDef name) →
    ∃ t, exec (.j name) s = .next t ∧ t.pc = n ∧ step t = .next { t with pc := n + 1 }

/-- R112, R119: a jump to an undefined label repeats in place for every number of steps, reporting each time. -/
def Obligations.UndefinedJumpRepeatsForever : Prop :=
  ∀ (k : Nat) (s : State) (line : TokenLine) (tok : Token),
    s.fault = none → s.prog[s.pc]? = some line → decode line = .instr (.j tok) →
    isNumeral tok = false → s.labels.index? tok = none →
    Host.Core.run Sys2Proof.core k s = .next ({ s with
      instructionCount := s.instructionCount + k, cycleCount := s.cycleCount + k,
      diags := s.diags ++ List.replicate k ⟨.labelNotFound, s.pc, tok⟩ } : State)

/-! ### Registers and memory -/

/-- R23: every register, 0 among them, gives back what was written to it. -/
def Obligations.EveryRegisterHoldsWhatIsWritten : Prop :=
  ∀ (r rd : RegIdx) (imm : Int) (s : State), ∃ t u, exec (.li r imm) s = .next t ∧
    t.readReg r = wrap imm ∧ exec (.addi rd r 0) t = .next u ∧ u.readReg rd = wrap imm

/-- R9, R134: `wrap` is reduction modulo 2^32 into the signed range, and signed and unsigned readings of the operands
give the same sum and difference. -/
def Obligations.WrapIsReductionModuloWordSize : Prop :=
  (∀ n : Int, uval (wrap n) = n % 2 ^ 32 ∧ sval (wrap n) % 2 ^ 32 = n % 2 ^ 32 ∧
    -(2 ^ 31) ≤ sval (wrap n) ∧ sval (wrap n) < 2 ^ 31) ∧
  ∀ v w : Word, wrap (sval v) = v ∧ wrap (sval v + sval w) = wrap (uval v + uval w) ∧
    wrap (sval v - sval w) = wrap (uval v - uval w)

/-- R53: a write creates or overwrites the word at its address, 0 included, and populates no other address. -/
def Obligations.WritePopulatesExactlyItsAddress : Prop :=
  ∀ (s : State) (a b : Addr) (v : Word),
    (s.memWrite a v).mem.lookup b = (if b = a then some v else s.mem.lookup b) ∧
    (b ∈ (s.memWrite a v).mem.populated ↔ b = a ∨ b ∈ s.mem.populated)

/-- R66: an LW right after an SW to the same address gives the stored value, whichever registers they name. -/
def Obligations.LoadAfterStoreGivesStoredValue : Prop :=
  ∀ (s : State) (rs2 rs1 rd : RegIdx) (offset : Int), ∃ t u,
    exec (.sw rs2 offset rs1) s = .next t ∧ exec (.lw rd offset rs1) t = .next u ∧
    u.readReg rd = s.readReg rs2 ∧ (∀ r, r ≠ rd → u.readReg r = s.readReg r) ∧
    u.memoryAccesses = s.memoryAccesses + 2

/-- R67, R121 and the spec's decision D22: the snapshot lists exactly the populated addresses with their words, in
ascending integer order, and taking it, like stopping, changes nothing. -/
def Obligations.SnapshotListsPopulatedInOrder : Prop :=
  ∀ s : State, hostAct .snapshot s = s ∧ hostAct .stop s = s ∧
    (s.mem.wf → (s.snapshot.memory.map Prod.fst).Pairwise (fun a b => a < b) ∧
      ∀ a v, (a, v) ∈ s.snapshot.memory ↔ s.mem.lookup a = some v)

/-- Log entry 5: in canonical form, memories with the same contents are the same data. -/
def Obligations.CanonicalMemoriesWithSameContentsAreEqual : Prop :=
  ∀ m n : Memory, m.wf → n.wf → (∀ a, m.lookup a = n.lookup a) → m = n

/-- R30, R40: nothing a program does depends on the counters, the log, or whether a 0 was stored. -/
def Obligations.ProgramsCannotSeeCountersLogOrPopulatedSet : Prop :=
  ∀ s s' t : State, SameToPrograms s s' → step s = .next t →
    ∃ t', step s' = .next t' ∧ SameToPrograms t t'
end

