-- ==== Sys2Proof/Laws/Decode.lean ====
section
/-! SUPPORT. The decode stage: digits, operands, mnemonics and the classes of a slot. -/

namespace Sys2Proof

/-! ### Decimal digits -/

theorem digitChar_digit {d : Nat} (h : d < 10) :
    isDigitChar (digitChar d) = true ∧ digitVal (digitChar d) = d := by
  interval_cases d <;> decide

/-- The value of a digit list read after the value `n`. -/
theorem decimalVal_foldl (cs : List Char) (n : Nat) :
    cs.foldl (fun n c => 10 * n + digitVal c) n = n * 10 ^ cs.length + decimalVal cs := by
  unfold decimalVal
  induction cs generalizing n with
  | nil => simp
  | cons c cs ih =>
    rw [List.foldl_cons, ih, List.foldl_cons, ih (10 * 0 + digitVal c), List.length_cons, pow_succ]
    ring

theorem decimalVal_cons (c : Char) (cs : List Char) :
    decimalVal (c :: cs) = digitVal c * 10 ^ cs.length + decimalVal cs := by
  conv_lhs => unfold decimalVal
  rw [List.foldl_cons, decimalVal_foldl]
  simp

/-- What `digitsAux` writes in front of `acc`, where the fuel suffices. -/
theorem digitsAux_spec (fuel n : Nat) (acc : List Char) (h : n < 10 ^ fuel) (hf : 0 < fuel) :
    ∃ ds, digitsAux fuel n acc = ds ++ acc ∧ allDigits ds = true ∧ decimalVal ds = n := by
  induction fuel generalizing n acc with
  | zero => omega
  | succ fuel ih =>
    unfold digitsAux
    split
    · rename_i hn
      obtain ⟨h1, h2⟩ := digitChar_digit hn
      exact ⟨[digitChar n], rfl, by simp [allDigits, h1], by simp [decimalVal, h2]⟩
    · rename_i hn
      have hpos : 0 < fuel := by
        rcases Nat.eq_zero_or_pos fuel with rfl | hp
        · simp at h; omega
        · exact hp
      obtain ⟨ds, e, hd, hv⟩ := ih (n / 10) (digitChar (n % 10) :: acc)
        (by rw [pow_succ] at h; omega) hpos
      obtain ⟨h1, h2⟩ := digitChar_digit (Nat.mod_lt n (by decide : 0 < 10))
      refine ⟨ds ++ [digitChar (n % 10)], by simp [e], ?_, ?_⟩
      · simp only [allDigits, Bool.and_eq_true] at hd ⊢
        simp [hd.2, h1]
      · unfold decimalVal at hv ⊢
        rw [List.foldl_append, hv]
        simp [h2]
        omega

/-- The digits of `n` are one or more digits whose value is `n`. -/
theorem decimalDigits_spec (n : Nat) :
    allDigits (decimalDigits n) = true ∧ decimalVal (decimalDigits n) = n := by
  have hfuel : n < 10 ^ (n.log2 + 1) :=
    lt_of_lt_of_le Nat.lt_log2_self (Nat.pow_le_pow_left (by decide) _)
  obtain ⟨ds, e, hd, hv⟩ := digitsAux_spec _ n [] hfuel (Nat.succ_pos _)
  rw [List.append_nil] at e
  unfold decimalDigits
  rw [e]
  exact ⟨hd, hv⟩

/-- A digit list starts with a digit, so with no sign and no register letter. -/
theorem allDigits_head {cs : List Char} (h : allDigits cs = true) :
    ∃ c rest, cs = c :: rest ∧ isDigitChar c = true := by
  cases cs with
  | nil => simp [allDigits] at h
  | cons c rest => exact ⟨c, rest, rfl, by simp_all [allDigits]⟩

theorem isDigitChar_not_sign {c : Char} (h : isDigitChar c = true) :
    c ≠ '+' ∧ c ≠ '-' ∧ c ≠ 'x' ∧ c ≠ 'X' := by
  refine ⟨?_, ?_, ?_, ?_⟩ <;> rintro rfl <;> revert h <;> decide

theorem unsigned_digits {cs : List Char} (h : allDigits cs = true) : unsigned cs = cs := by
  obtain ⟨c, rest, rfl, hc⟩ := allDigits_head h
  obtain ⟨h1, h2, -, -⟩ := isDigitChar_not_sign hc
  simp [unsigned, h1, h2]

theorem regDigits_digits {cs : List Char} (h : allDigits cs = true) : regDigits cs = cs := by
  obtain ⟨c, rest, rfl, hc⟩ := allDigits_head h
  obtain ⟨-, -, h1, h2⟩ := isDigitChar_not_sign hc
  simp [regDigits, h1, h2]

/-! ### Operands -/

/-- When a token is the register `r`. -/
theorem regOperand_ok_iff (tok : Token) (r : RegIdx) :
    regOperand tok = .ok r ↔ isRegTok tok = true ∧ regval tok = r.val := by
  unfold regOperand
  cases h : isRegTok tok with
  | false => simp
  | true =>
    by_cases hv : regval tok < 32
    · simp [hv, Fin.ext_iff]
    · have : regval tok ≠ r.val := by omega
      simp [hv, this]

theorem immOperand_ok_iff (tok : Token) (n : Int) :
    immOperand tok = .ok n ↔ isInt tok = true ∧ intval tok = n := by
  unfold immOperand
  cases isInt tok <;> simp

theorem regOperand_regToken (r : RegIdx) : regOperand (regToken r) = .ok r := by
  obtain ⟨h1, h2⟩ := decimalDigits_spec r.val
  refine (regOperand_ok_iff _ _).mpr ⟨?_, ?_⟩
  · simpa [isRegTok, regToken, regDigits] using h1
  · simpa [regval, regToken, regDigits] using h2

theorem immOperand_immToken (n : Int) : immOperand (immToken n) = .ok n := by
  refine (immOperand_ok_iff _ _).mpr ?_
  cases n with
  | ofNat k =>
    obtain ⟨h1, h2⟩ := decimalDigits_spec k
    obtain ⟨c, rest, hc, hd⟩ := allDigits_head h1
    have hm : c ≠ '-' := (isDigitChar_not_sign hd).2.1
    refine ⟨by simpa [isInt, immToken, unsigned_digits h1] using h1, ?_⟩
    simp [intval, immToken, unsigned_digits h1, h2]
    simp [hc, hm]
  | negSucc k =>
    obtain ⟨h1, h2⟩ := decimalDigits_spec (k + 1)
    refine ⟨by simpa [isInt, immToken, unsigned] using h1, ?_⟩
    simp [intval, immToken, unsigned, h2]
    omega

/-! ### Formats: when each one accepts its operands, and with what (R78) -/

/-- Reading one operand and then the rest succeeds exactly when both do. -/
theorem bind_eq_ok {α β : Type} (x : Except MalformedReason α) (f : α → Except MalformedReason β) (b : β) :
    (x >>= f) = .ok b ↔ ∃ a, x = .ok a ∧ f a = .ok b := by
  cases x with
  | error r => simp [bind, Except.bind]
  | ok a => simp [bind, Except.bind]

theorem formatRRR_ok_iff (mk : RegIdx → RegIdx → RegIdx → Instr) (ops : List Token) (i : Instr) :
    formatRRR mk ops = .ok i ↔ ∃ t1 t2 t3 a b c, ops = [t1, t2, t3] ∧ regOperand t1 = .ok a ∧
      regOperand t2 = .ok b ∧ regOperand t3 = .ok c ∧ i = mk a b c := by
  match ops with
  | [t1, t2, t3] => simp [formatRRR, bind_eq_ok, pure, Except.pure, eq_comm (a := i)]
  | [] => simp [formatRRR]
  | [_] => simp [formatRRR]
  | [_, _] => simp [formatRRR]
  | _ :: _ :: _ :: _ :: _ => simp [formatRRR]

theorem formatRRI_ok_iff (mk : RegIdx → RegIdx → Int → Instr) (ops : List Token) (i : Instr) :
    formatRRI mk ops = .ok i ↔ ∃ t1 t2 t3 a b c, ops = [t1, t2, t3] ∧ regOperand t1 = .ok a ∧
      regOperand t2 = .ok b ∧ immOperand t3 = .ok c ∧ i = mk a b c := by
  match ops with
  | [t1, t2, t3] => simp [formatRRI, bind_eq_ok, pure, Except.pure, eq_comm (a := i)]
  | [] => simp [formatRRI]
  | [_] => simp [formatRRI]
  | [_, _] => simp [formatRRI]
  | _ :: _ :: _ :: _ :: _ => simp [formatRRI]

theorem formatRI_ok_iff (mk : RegIdx → Int → Instr) (ops : List Token) (i : Instr) :
    formatRI mk ops = .ok i ↔ ∃ t1 t2 a b, ops = [t1, t2] ∧ regOperand t1 = .ok a ∧
      immOperand t2 = .ok b ∧ i = mk a b := by
  match ops with
  | [t1, t2] => simp [formatRI, bind_eq_ok, pure, Except.pure, eq_comm (a := i)]
  | [] => simp [formatRI]
  | [_] => simp [formatRI]
  | _ :: _ :: _ :: _ => simp [formatRI]

theorem formatMem_ok_iff (mk : RegIdx → Int → RegIdx → Instr) (ops : List Token) (i : Instr) :
    formatMem mk ops = .ok i ↔ ∃ t1 t2 t3 a b c, ops = [t1, t2, t3] ∧ regOperand t1 = .ok a ∧
      immOperand t2 = .ok b ∧ regOperand t3 = .ok c ∧ i = mk a b c := by
  match ops with
  | [t1, t2, t3] => simp [formatMem, bind_eq_ok, pure, Except.pure, eq_comm (a := i)]
  | [] => simp [formatMem]
  | [_] => simp [formatMem]
  | [_, _] => simp [formatMem]
  | _ :: _ :: _ :: _ :: _ => simp [formatMem]

theorem formatBranch_ok_iff (mk : RegIdx → RegIdx → Token → Instr) (ops : List Token) (i : Instr) :
    formatBranch mk ops = .ok i ↔ ∃ t1 t2 t3 a b, ops = [t1, t2, t3] ∧ regOperand t1 = .ok a ∧
      regOperand t2 = .ok b ∧ i = mk a b t3 := by
  match ops with
  | [t1, t2, t3] => simp [formatBranch, bind_eq_ok, pure, Except.pure, eq_comm (a := i)]
  | [] => simp [formatBranch]
  | [_] => simp [formatBranch]
  | [_, _] => simp [formatBranch]
  | _ :: _ :: _ :: _ :: _ => simp [formatBranch]

theorem formatJal_ok_iff (mk : RegIdx → Token → Instr) (ops : List Token) (i : Instr) :
    formatJal mk ops = .ok i ↔ (∃ t1, ops = [t1] ∧ i = mk Config.linkRegister t1) ∨
      ∃ t1 t2 a, ops = [t1, t2] ∧ regOperand t1 = .ok a ∧ i = mk a t2 := by
  match ops with
  | [t1] => simp [formatJal, eq_comm (a := i)]
  | [t1, t2] => simp [formatJal, bind_eq_ok, pure, Except.pure, eq_comm (a := i)]
  | [] => simp [formatJal]
  | _ :: _ :: _ :: _ => simp [formatJal]

theorem formatJump_ok_iff (mk : Token → Instr) (ops : List Token) (i : Instr) :
    formatJump mk ops = .ok i ↔ ∃ t1, ops = [t1] ∧ i = mk t1 := by
  match ops with
  | [t1] => simp [formatJump, eq_comm (a := i)]
  | [] => simp [formatJump]
  | _ :: _ :: _ => simp [formatJump]

/-! ### Mnemonics -/

theorem tagOf_mnemonic (m : Tag) : tagOf m.mnemonic = some m := by
  cases m <;> decide

/-- When an opcode token selects a tag (R73). -/
theorem tagOf_eq_some_iff (op : Token) (m : Tag) : tagOf op = some m ↔ lower op = m.mnemonic := by
  constructor
  · intro h
    unfold tagOf at h
    have hp := List.find?_some h
    exact (eq_of_beq hp).symm
  · intro h
    have : tagOf op = tagOf m.mnemonic := by
      unfold tagOf
      have hl : lower m.mnemonic = m.mnemonic := by cases m <;> decide
      rw [h, hl]
    rw [this, tagOf_mnemonic]

theorem lowerChar_colon (c : Char) : lowerChar c = ':' ↔ c = ':' := by
  unfold lowerChar
  split
  · rename_i h
    obtain ⟨h1, h2⟩ := h
    constructor
    · intro e
      have h1' : 65 ≤ c.toNat := h1
      have h2' : c.toNat ≤ 90 := h2
      have e' := congrArg Char.toNat e
      exfalso
      clear e
      generalize c.toNat = k at *
      interval_cases k <;> revert e' <;> decide
    · rintro rfl
      revert h1
      decide
  · rfl

/-- Case folding keeps a final colon, and makes none. -/
theorem endsWithColon_lower (op : Token) : endsWithColon (lower op) = endsWithColon op := by
  have : ∀ o : Option Char, (o.map lowerChar == some ':') = (o == some ':') := by
    intro o
    cases o with
    | none => rfl
    | some c =>
      rw [Bool.eq_iff_iff]
      simpa using lowerChar_colon c
  simpa [endsWithColon, lower] using this op.toList.getLast?

/-- A mnemonic never ends in a colon. -/
theorem endsWithColon_of_tagOf {op : Token} {m : Tag} (h : tagOf op = some m) :
    endsWithColon op = false := by
  rw [← endsWithColon_lower, (tagOf_eq_some_iff op m).mp h]
  cases m <;> decide

/-! ### Slots -/

theorem decode_nil : decode [] = .malformed none .empty := rfl

@[simp] theorem recognizedSlot_ok (op : Token) (i : Instr) : recognizedSlot op (.ok i) = .instr i := rfl

@[simp] theorem recognizedSlot_error (op : Token) (r : MalformedReason) :
    recognizedSlot op (.error r) = .malformed (some op) r := rfl

/-- The decode of a slot with a recognized mnemonic. -/
theorem decode_recognized {op : Token} {m : Tag} (ops : List Token) (h : tagOf op = some m) :
    decode (op :: ops) = recognizedSlot op (decodeOperands m ops) := by
  simp [decode, endsWithColon_of_tagOf h, decodeInstruction, h]

/-- The decode of a slot with any other opcode token. -/
theorem decode_unrecognized {op : Token} (ops : List Token) (h : tagOf op = none) :
    decode (op :: ops) =
      if ops = [] ∧ endsWithColon op = true then .labelDef (dropLastChar op) else .unknown op := by
  simp [decode, decodeInstruction, h]

end Sys2Proof
end

