-- ==== Sys2Proof/Laws/Claims.lean ====
section
/-! SUPPORT. The operand syntaxes the statements use, read from R74 and R75, agree with the decoder's checks of
R81; and memory's listing agrees with its lookup. -/

namespace Sys2Proof.Claims

open Sys2Proof.Machine

/-- A token split as R74 says is one the decoder's register check accepts, and conversely. -/
theorem registerToken_iff (tok : Token) (n : Nat) :
    RegisterToken tok n ↔ isRegTok tok = true ∧ regval tok = n := by
  constructor
  · rintro ⟨p, d, rfl, rfl | rfl | rfl, hd, hv⟩
    · have hr : regDigits d.toList = d.toList := regDigits_digits hd
      simp only [isRegTok, regval, String.empty_append, hr]
      exact ⟨hd, hv⟩
    · simp only [isRegTok, regval, String.toList_append]
      exact ⟨hd, hv⟩
    · simp only [isRegTok, regval, String.toList_append]
      exact ⟨hd, hv⟩
  · rintro ⟨h, hv⟩
    unfold isRegTok at h
    unfold regval at hv
    cases hl : tok.toList with
    | nil => simp [hl, regDigits, allDigits] at h
    | cons c cs =>
      rw [hl] at h hv
      by_cases hc : c = 'x' ∨ c = 'X'
      · simp only [regDigits, hc, if_true] at h hv
        refine ⟨String.singleton c, String.ofList cs, String.toList_inj.mp (by simp [hl]), ?_,
          by simpa [isNumeral] using h, by simpa [natval] using hv⟩
        rcases hc with rfl | rfl
        · exact .inr (.inl rfl)
        · exact .inr (.inr rfl)
      · simp only [regDigits, hc, if_false] at h hv
        exact ⟨"", tok, by simp, .inl rfl, by simpa [isNumeral, hl] using h,
          by simpa [natval, hl] using hv⟩

/-- A token split as R75 says is one the decoder's integer check accepts, with the same value, and conversely. -/
theorem immediateToken_iff (tok : Token) (n : Int) :
    ImmediateToken tok n ↔ isInt tok = true ∧ intval tok = n := by
  constructor
  · rintro ⟨g, d, rfl, hd, ⟨rfl | rfl, rfl⟩ | ⟨rfl, rfl⟩⟩
    · have hu : unsigned d.toList = d.toList := unsigned_digits hd
      obtain ⟨c, rest, hc, hdig⟩ := allDigits_head (cs := d.toList) hd
      have hm : c ≠ '-' := (isDigitChar_not_sign hdig).2.1
      simp only [isInt, intval, String.empty_append, hu, natval]
      exact ⟨hd, by simp [hc, hm]⟩
    · simp only [isInt, intval, String.toList_append]
      exact ⟨hd, rfl⟩
    · simp only [isInt, intval, String.toList_append]
      exact ⟨hd, rfl⟩
  · rintro ⟨h, rfl⟩
    unfold isInt at h
    unfold intval
    cases hl : tok.toList with
    | nil => simp [hl, unsigned, allDigits] at h
    | cons c cs =>
      rw [hl] at h
      by_cases hp : c = '+'
      · subst hp
        exact ⟨"+", String.ofList cs, String.toList_inj.mp (by simp [hl]),
          by simpa [isNumeral, unsigned] using h, .inl (by simp [natval, unsigned])⟩
      · by_cases hm : c = '-'
        · subst hm
          exact ⟨"-", String.ofList cs, String.toList_inj.mp (by simp [hl]),
            by simpa [isNumeral, unsigned] using h, .inr (by simp [natval, unsigned])⟩
        · exact ⟨"", tok, by simp, by simpa [isNumeral, unsigned, hp, hm, hl] using h,
            .inl (by simp [natval, unsigned, hp, hm, hl])⟩

/-- The register operands, as a check that can be run. -/
theorem fits_reg_iff (tok : Token) : Fits .reg tok ↔ isRegTok tok = true ∧ regval tok < 32 := by
  simp only [Fits, registerToken_iff]
  exact ⟨fun ⟨r, h, hr⟩ => ⟨h, hr ▸ r.isLt⟩, fun ⟨h, hr⟩ => ⟨⟨regval tok, hr⟩, h, rfl⟩⟩

/-- The immediate operands, as a check that can be run. -/
theorem fits_imm_iff (tok : Token) : Fits .imm tok ↔ isInt tok = true := by
  simp only [Fits, immediateToken_iff]
  exact ⟨fun ⟨_, h, _⟩ => h, fun h => ⟨_, h, rfl⟩⟩

/-- Every token is a label operand. -/
theorem fits_label (tok : Token) : Fits .label tok := trivial

end Sys2Proof.Claims
end

