-- ==== Sys2Proof/Laws/State.lean ====
section
/-! SUPPORT. What each state update leaves in each field of the state. Every lemma is true by unfolding one
record update, and none is a claim: they keep the later proofs from unfolding the updates again. -/

namespace Sys2Proof.Machine

section
variable (s : State)

/-! `State.writeReg` -/

@[simp] theorem State.writeReg_prog (r : RegIdx) (v : Word) : (s.writeReg r v).prog = s.prog := rfl
@[simp] theorem State.writeReg_labels (r : RegIdx) (v : Word) : (s.writeReg r v).labels = s.labels := rfl
@[simp] theorem State.writeReg_pc (r : RegIdx) (v : Word) : (s.writeReg r v).pc = s.pc := rfl
@[simp] theorem State.writeReg_x (r : RegIdx) (v : Word) : (s.writeReg r v).x = s.x.set r v := rfl
@[simp] theorem State.writeReg_mem (r : RegIdx) (v : Word) : (s.writeReg r v).mem = s.mem := rfl
@[simp] theorem State.writeReg_instructionCount (r : RegIdx) (v : Word) : (s.writeReg r v).instructionCount = s.instructionCount := rfl
@[simp] theorem State.writeReg_cycleCount (r : RegIdx) (v : Word) : (s.writeReg r v).cycleCount = s.cycleCount := rfl
@[simp] theorem State.writeReg_memoryAccesses (r : RegIdx) (v : Word) : (s.writeReg r v).memoryAccesses = s.memoryAccesses := rfl
@[simp] theorem State.writeReg_diags (r : RegIdx) (v : Word) : (s.writeReg r v).diags = s.diags := rfl
@[simp] theorem State.writeReg_fault (r : RegIdx) (v : Word) : (s.writeReg r v).fault = s.fault := rfl

/-! `State.memWrite` -/

@[simp] theorem State.memWrite_prog (a : Addr) (v : Word) : (s.memWrite a v).prog = s.prog := rfl
@[simp] theorem State.memWrite_labels (a : Addr) (v : Word) : (s.memWrite a v).labels = s.labels := rfl
@[simp] theorem State.memWrite_pc (a : Addr) (v : Word) : (s.memWrite a v).pc = s.pc := rfl
@[simp] theorem State.memWrite_x (a : Addr) (v : Word) : (s.memWrite a v).x = s.x := rfl
@[simp] theorem State.memWrite_mem (a : Addr) (v : Word) : (s.memWrite a v).mem = s.mem.insert a v := rfl
@[simp] theorem State.memWrite_instructionCount (a : Addr) (v : Word) : (s.memWrite a v).instructionCount = s.instructionCount := rfl
@[simp] theorem State.memWrite_cycleCount (a : Addr) (v : Word) : (s.memWrite a v).cycleCount = s.cycleCount := rfl
@[simp] theorem State.memWrite_memoryAccesses (a : Addr) (v : Word) : (s.memWrite a v).memoryAccesses = s.memoryAccesses := rfl
@[simp] theorem State.memWrite_diags (a : Addr) (v : Word) : (s.memWrite a v).diags = s.diags := rfl
@[simp] theorem State.memWrite_fault (a : Addr) (v : Word) : (s.memWrite a v).fault = s.fault := rfl

/-! `State.countAccess` -/

@[simp] theorem State.countAccess_prog : (s.countAccess).prog = s.prog := rfl
@[simp] theorem State.countAccess_labels : (s.countAccess).labels = s.labels := rfl
@[simp] theorem State.countAccess_pc : (s.countAccess).pc = s.pc := rfl
@[simp] theorem State.countAccess_x : (s.countAccess).x = s.x := rfl
@[simp] theorem State.countAccess_mem : (s.countAccess).mem = s.mem := rfl
@[simp] theorem State.countAccess_instructionCount : (s.countAccess).instructionCount = s.instructionCount := rfl
@[simp] theorem State.countAccess_cycleCount : (s.countAccess).cycleCount = s.cycleCount := rfl
@[simp] theorem State.countAccess_memoryAccesses : (s.countAccess).memoryAccesses = s.memoryAccesses + 1 := rfl
@[simp] theorem State.countAccess_diags : (s.countAccess).diags = s.diags := rfl
@[simp] theorem State.countAccess_fault : (s.countAccess).fault = s.fault := rfl

/-! `State.setPc` -/

@[simp] theorem State.setPc_prog (t : Nat) : (s.setPc t).prog = s.prog := rfl
@[simp] theorem State.setPc_labels (t : Nat) : (s.setPc t).labels = s.labels := rfl
@[simp] theorem State.setPc_pc (t : Nat) : (s.setPc t).pc = t := rfl
@[simp] theorem State.setPc_x (t : Nat) : (s.setPc t).x = s.x := rfl
@[simp] theorem State.setPc_mem (t : Nat) : (s.setPc t).mem = s.mem := rfl
@[simp] theorem State.setPc_instructionCount (t : Nat) : (s.setPc t).instructionCount = s.instructionCount := rfl
@[simp] theorem State.setPc_cycleCount (t : Nat) : (s.setPc t).cycleCount = s.cycleCount := rfl
@[simp] theorem State.setPc_memoryAccesses (t : Nat) : (s.setPc t).memoryAccesses = s.memoryAccesses := rfl
@[simp] theorem State.setPc_diags (t : Nat) : (s.setPc t).diags = s.diags := rfl
@[simp] theorem State.setPc_fault (t : Nat) : (s.setPc t).fault = s.fault := rfl

/-! `State.countCycle` -/

@[simp] theorem State.countCycle_prog : (s.countCycle).prog = s.prog := rfl
@[simp] theorem State.countCycle_labels : (s.countCycle).labels = s.labels := rfl
@[simp] theorem State.countCycle_pc : (s.countCycle).pc = s.pc := rfl
@[simp] theorem State.countCycle_x : (s.countCycle).x = s.x := rfl
@[simp] theorem State.countCycle_mem : (s.countCycle).mem = s.mem := rfl
@[simp] theorem State.countCycle_instructionCount : (s.countCycle).instructionCount = s.instructionCount := rfl
@[simp] theorem State.countCycle_cycleCount : (s.countCycle).cycleCount = s.cycleCount + 1 := rfl
@[simp] theorem State.countCycle_memoryAccesses : (s.countCycle).memoryAccesses = s.memoryAccesses := rfl
@[simp] theorem State.countCycle_diags : (s.countCycle).diags = s.diags := rfl
@[simp] theorem State.countCycle_fault : (s.countCycle).fault = s.fault := rfl

/-! `State.countInstruction` -/

@[simp] theorem State.countInstruction_prog : (s.countInstruction).prog = s.prog := rfl
@[simp] theorem State.countInstruction_labels : (s.countInstruction).labels = s.labels := rfl
@[simp] theorem State.countInstruction_pc : (s.countInstruction).pc = s.pc := rfl
@[simp] theorem State.countInstruction_x : (s.countInstruction).x = s.x := rfl
@[simp] theorem State.countInstruction_mem : (s.countInstruction).mem = s.mem := rfl
@[simp] theorem State.countInstruction_instructionCount : (s.countInstruction).instructionCount = s.instructionCount + 1 := rfl
@[simp] theorem State.countInstruction_cycleCount : (s.countInstruction).cycleCount = s.cycleCount := rfl
@[simp] theorem State.countInstruction_memoryAccesses : (s.countInstruction).memoryAccesses = s.memoryAccesses := rfl
@[simp] theorem State.countInstruction_diags : (s.countInstruction).diags = s.diags := rfl
@[simp] theorem State.countInstruction_fault : (s.countInstruction).fault = s.fault := rfl

/-! `State.report` -/

@[simp] theorem State.report_prog (c : DiagCode) (i : Nat) (tok : Token) : (s.report c i tok).prog = s.prog := rfl
@[simp] theorem State.report_labels (c : DiagCode) (i : Nat) (tok : Token) : (s.report c i tok).labels = s.labels := rfl
@[simp] theorem State.report_pc (c : DiagCode) (i : Nat) (tok : Token) : (s.report c i tok).pc = s.pc := rfl
@[simp] theorem State.report_x (c : DiagCode) (i : Nat) (tok : Token) : (s.report c i tok).x = s.x := rfl
@[simp] theorem State.report_mem (c : DiagCode) (i : Nat) (tok : Token) : (s.report c i tok).mem = s.mem := rfl
@[simp] theorem State.report_instructionCount (c : DiagCode) (i : Nat) (tok : Token) : (s.report c i tok).instructionCount = s.instructionCount := rfl
@[simp] theorem State.report_cycleCount (c : DiagCode) (i : Nat) (tok : Token) : (s.report c i tok).cycleCount = s.cycleCount := rfl
@[simp] theorem State.report_memoryAccesses (c : DiagCode) (i : Nat) (tok : Token) : (s.report c i tok).memoryAccesses = s.memoryAccesses := rfl
@[simp] theorem State.report_diags (c : DiagCode) (i : Nat) (tok : Token) : (s.report c i tok).diags = s.diags ++ [⟨c, i, tok⟩] := rfl
@[simp] theorem State.report_fault (c : DiagCode) (i : Nat) (tok : Token) : (s.report c i tok).fault = s.fault := rfl

/-! `State.raiseMalformed` -/

@[simp] theorem State.raiseMalformed_prog (o : Option Token) (r : MalformedReason) : (s.raiseMalformed o r).prog = s.prog := rfl
@[simp] theorem State.raiseMalformed_labels (o : Option Token) (r : MalformedReason) : (s.raiseMalformed o r).labels = s.labels := rfl
@[simp] theorem State.raiseMalformed_pc (o : Option Token) (r : MalformedReason) : (s.raiseMalformed o r).pc = s.pc := rfl
@[simp] theorem State.raiseMalformed_x (o : Option Token) (r : MalformedReason) : (s.raiseMalformed o r).x = s.x := rfl
@[simp] theorem State.raiseMalformed_mem (o : Option Token) (r : MalformedReason) : (s.raiseMalformed o r).mem = s.mem := rfl
@[simp] theorem State.raiseMalformed_instructionCount (o : Option Token) (r : MalformedReason) : (s.raiseMalformed o r).instructionCount = s.instructionCount := rfl
@[simp] theorem State.raiseMalformed_cycleCount (o : Option Token) (r : MalformedReason) : (s.raiseMalformed o r).cycleCount = s.cycleCount := rfl
@[simp] theorem State.raiseMalformed_memoryAccesses (o : Option Token) (r : MalformedReason) : (s.raiseMalformed o r).memoryAccesses = s.memoryAccesses := rfl
@[simp] theorem State.raiseMalformed_diags (o : Option Token) (r : MalformedReason) : (s.raiseMalformed o r).diags = s.diags := rfl
@[simp] theorem State.raiseMalformed_fault (o : Option Token) (r : MalformedReason) : (s.raiseMalformed o r).fault = some ⟨s.pc, o, r⟩ := rfl

/-! `State.skipLabel` -/

@[simp] theorem State.skipLabel_prog : (s.skipLabel).prog = s.prog := rfl
@[simp] theorem State.skipLabel_labels : (s.skipLabel).labels = s.labels := rfl
@[simp] theorem State.skipLabel_pc : (s.skipLabel).pc = s.pc + 1 := rfl
@[simp] theorem State.skipLabel_x : (s.skipLabel).x = s.x := rfl
@[simp] theorem State.skipLabel_mem : (s.skipLabel).mem = s.mem := rfl
@[simp] theorem State.skipLabel_instructionCount : (s.skipLabel).instructionCount = s.instructionCount := rfl
@[simp] theorem State.skipLabel_cycleCount : (s.skipLabel).cycleCount = s.cycleCount := rfl
@[simp] theorem State.skipLabel_memoryAccesses : (s.skipLabel).memoryAccesses = s.memoryAccesses := rfl
@[simp] theorem State.skipLabel_diags : (s.skipLabel).diags = s.diags := rfl
@[simp] theorem State.skipLabel_fault : (s.skipLabel).fault = s.fault := rfl

/-! `State.skipUnknown` -/

@[simp] theorem State.skipUnknown_prog (o : Token) : (s.skipUnknown o).prog = s.prog := rfl
@[simp] theorem State.skipUnknown_labels (o : Token) : (s.skipUnknown o).labels = s.labels := rfl
@[simp] theorem State.skipUnknown_pc (o : Token) : (s.skipUnknown o).pc = s.pc + 1 := rfl
@[simp] theorem State.skipUnknown_x (o : Token) : (s.skipUnknown o).x = s.x := rfl
@[simp] theorem State.skipUnknown_mem (o : Token) : (s.skipUnknown o).mem = s.mem := rfl
@[simp] theorem State.skipUnknown_instructionCount (o : Token) : (s.skipUnknown o).instructionCount = s.instructionCount := rfl
@[simp] theorem State.skipUnknown_cycleCount (o : Token) : (s.skipUnknown o).cycleCount = s.cycleCount + 1 := rfl
@[simp] theorem State.skipUnknown_memoryAccesses (o : Token) : (s.skipUnknown o).memoryAccesses = s.memoryAccesses := rfl
@[simp] theorem State.skipUnknown_diags (o : Token) : (s.skipUnknown o).diags = s.diags ++ [⟨.unknownInstruction, s.pc, o⟩] := rfl
@[simp] theorem State.skipUnknown_fault (o : Token) : (s.skipUnknown o).fault = s.fault := rfl

/-! Reads after an update that does not touch what they read -/

@[simp] theorem State.memRead_writeReg (r : RegIdx) (v : Word) (q : Addr) : (s.writeReg r v).memRead q = s.memRead q := rfl
@[simp] theorem State.readReg_memWrite (a : Addr) (v : Word) (q : RegIdx) : (s.memWrite a v).readReg q = s.readReg q := rfl
@[simp] theorem State.readReg_countAccess (q : RegIdx) : (s.countAccess).readReg q = s.readReg q := rfl
@[simp] theorem State.memRead_countAccess (q : Addr) : (s.countAccess).memRead q = s.memRead q := rfl
@[simp] theorem State.readReg_setPc (t : Nat) (q : RegIdx) : (s.setPc t).readReg q = s.readReg q := rfl
@[simp] theorem State.memRead_setPc (t : Nat) (q : Addr) : (s.setPc t).memRead q = s.memRead q := rfl
@[simp] theorem State.readReg_countCycle (q : RegIdx) : (s.countCycle).readReg q = s.readReg q := rfl
@[simp] theorem State.memRead_countCycle (q : Addr) : (s.countCycle).memRead q = s.memRead q := rfl
@[simp] theorem State.readReg_countInstruction (q : RegIdx) : (s.countInstruction).readReg q = s.readReg q := rfl
@[simp] theorem State.memRead_countInstruction (q : Addr) : (s.countInstruction).memRead q = s.memRead q := rfl
@[simp] theorem State.readReg_report (c : DiagCode) (i : Nat) (tok : Token) (q : RegIdx) : (s.report c i tok).readReg q = s.readReg q := rfl
@[simp] theorem State.memRead_report (c : DiagCode) (i : Nat) (tok : Token) (q : Addr) : (s.report c i tok).memRead q = s.memRead q := rfl
@[simp] theorem State.readReg_raiseMalformed (o : Option Token) (r : MalformedReason) (q : RegIdx) : (s.raiseMalformed o r).readReg q = s.readReg q := rfl
@[simp] theorem State.memRead_raiseMalformed (o : Option Token) (r : MalformedReason) (q : Addr) : (s.raiseMalformed o r).memRead q = s.memRead q := rfl
@[simp] theorem State.readReg_skipLabel (q : RegIdx) : (s.skipLabel).readReg q = s.readReg q := rfl
@[simp] theorem State.memRead_skipLabel (q : Addr) : (s.skipLabel).memRead q = s.memRead q := rfl
@[simp] theorem State.readReg_skipUnknown (o : Token) (q : RegIdx) : (s.skipUnknown o).readReg q = s.readReg q := rfl
@[simp] theorem State.memRead_skipUnknown (o : Token) (q : Addr) : (s.skipUnknown o).memRead q = s.memRead q := rfl

/-- The next state of `retire`, as one record. -/
theorem State.retire_eq (n : Nat) :
    s.retire n = .next { s with
      pc := n, instructionCount := s.instructionCount + 1, cycleCount := s.cycleCount + 1 } := rfl

end

end Sys2Proof.Machine
end

