-- ==== Sys2Proof/Laws/Ops.lean ====
section
/-! SUPPORT. One lemma for each shared operation, saying once everything it can do: registers, memory, label
resolution, the redirect, the label builder and the status. -/

namespace Sys2Proof.Machine

/-! ### Registers -/

theorem State.readReg_writeReg (s : State) (rd r : RegIdx) (v : Word) :
    (s.writeReg rd v).readReg r = if r = rd then v else s.readReg r := by
  simp only [State.readReg, State.writeReg, Fin.getElem_fin, Vector.getElem_set, Fin.ext_iff,
    eq_comm (a := (rd : Nat))]

/-! ### Memory -/

theorem Memory.lookup_insert (m : Memory) (a b : Addr) (v : Word) :
    (m.insert a v).lookup b = if b = a then some v else m.lookup b := by
  induction m with
  | nil => simp [Memory.insert, Memory.lookup]
  | cons p rest ih =>
    obtain ⟨c, w⟩ := p
    by_cases hlt : a < c
    · simp [Memory.insert, Memory.lookup, hlt]
    · by_cases hac : a = c
      · subst hac
        by_cases hba : b = a <;> simp [Memory.insert, Memory.lookup, hba]
      · by_cases hbc : b = c
        · have : b ≠ a := fun e => hac (e ▸ hbc)
          simp [Memory.insert, Memory.lookup, hac, hlt, hbc, Ne.symm hac]
        · simp [Memory.insert, Memory.lookup, hlt, hac, hbc, ih]

theorem State.memRead_memWrite (s : State) (a b : Addr) (v : Word) :
    (s.memWrite a v).memRead b = if b = a then v else s.memRead b := by
  simp only [State.memRead, State.memWrite, Memory.lookup_insert]
  split <;> rfl

/-- Every address an insertion lists is the one written or was listed before. -/
theorem Memory.mem_insert {m : Memory} {a : Addr} {v : Word} {p : Addr × Word}
    (h : p ∈ m.insert a v) : p = (a, v) ∨ p ∈ m := by
  induction m with
  | nil => simpa [Memory.insert] using h
  | cons q rest ih =>
    simp only [Memory.insert] at h
    split at h
    · simpa using h
    · split at h
      · rcases List.mem_cons.mp h with h | h <;> simp [h]
      · rcases List.mem_cons.mp h with h | h
        · simp [h]
        · rcases ih h with h | h <;> simp [h]

/-- Writing keeps the canonical form of memory. -/
theorem Memory.insert_wf {m : Memory} (a : Addr) (v : Word) (h : m.wf) : (m.insert a v).wf := by
  induction m with
  | nil => simp [Memory.insert, Memory.wf]
  | cons q rest ih =>
    obtain ⟨c, w⟩ := q
    obtain ⟨hq, hrest⟩ := List.pairwise_cons.mp h
    simp only [Memory.insert]
    split
    · rename_i hac
      refine List.pairwise_cons.mpr ⟨fun p hp => ?_, h⟩
      rcases List.mem_cons.mp hp with rfl | hp
      · exact hac
      · exact lt_trans hac (hq p hp)
    · split
      · rename_i hac
        subst hac
        exact List.pairwise_cons.mpr ⟨hq, hrest⟩
      · rename_i h1 h2
        refine List.pairwise_cons.mpr ⟨fun p hp => ?_, ih hrest⟩
        rcases Memory.mem_insert hp with rfl | hp
        · exact lt_of_le_of_ne (not_lt.mp h1) (Ne.symm h2)
        · exact hq p hp

theorem State.memWrite_wf {s : State} (a : Addr) (v : Word) (h : s.mem.wf) : (s.memWrite a v).mem.wf :=
  Memory.insert_wf a v h

theorem State.reset_memory_wf : State.reset.mem.wf := List.Pairwise.nil

/-- An address is populated exactly where a look-up finds a word. -/
theorem Memory.mem_populated_iff (m : Memory) (a : Addr) : a ∈ m.populated ↔ m.lookup a ≠ none := by
  unfold Memory.populated
  induction m with
  | nil => simp [Memory.lookup]
  | cons p rest ih =>
    obtain ⟨c, w⟩ := p
    by_cases h : a = c <;> simp [Memory.lookup, h, ← ih]

/-- In canonical form, an entry is listed exactly where a look-up finds it. -/
theorem Memory.mem_iff_lookup {m : Memory} (h : m.wf) (a : Addr) (v : Word) :
    (a, v) ∈ m ↔ m.lookup a = some v := by
  induction m with
  | nil => simp [Memory.lookup]
  | cons p rest ih =>
    obtain ⟨c, w⟩ := p
    obtain ⟨hc, hrest⟩ := List.pairwise_cons.mp h
    by_cases hac : a = c
    · subst hac
      have : (a, v) ∉ rest := fun hm => lt_irrefl a (hc (a, v) hm)
      simp [Memory.lookup, this, eq_comm]
    · simp [Memory.lookup, hac, ih hrest]

/-! ### Label resolution (R110 to R112) -/

/-- Everything `resolve` can do. -/
theorem resolve_cases (tok : Token) (i : Nat) (s : State) :
    (isNumeral tok = true ∧ resolve tok i s = (natval tok, s)) ∨
    (∃ n, isNumeral tok = false ∧ s.labels.index? tok = some n ∧ resolve tok i s = (n, s)) ∨
    (isNumeral tok = false ∧ s.labels.index? tok = none ∧
      resolve tok i s = (i, s.report .labelNotFound i tok)) := by
  unfold resolve
  cases isNumeral tok with
  | true => exact .inl ⟨rfl, rfl⟩
  | false =>
    cases h : s.labels.index? tok with
    | some n => exact .inr (.inl ⟨n, rfl, rfl, rfl⟩)
    | none => exact .inr (.inr ⟨rfl, rfl, rfl⟩)

/-- Everything a redirect can do: where the pc goes and what the log gains. -/
theorem State.redirect_cases (s : State) (tok : Token) :
    ∃ n ds, s.redirect tok = .next { s with
        pc := n, diags := s.diags ++ ds,
        instructionCount := s.instructionCount + 1, cycleCount := s.cycleCount + 1 } ∧
      ((isNumeral tok = true ∧ n = natval tok ∧ ds = []) ∨
       (isNumeral tok = false ∧ s.labels.index? tok = some n ∧ ds = []) ∨
       (isNumeral tok = false ∧ s.labels.index? tok = none ∧ n = s.pc ∧
          ds = [⟨.labelNotFound, s.pc, tok⟩])) := by
  unfold State.redirect
  rcases resolve_cases tok s.pc s with ⟨h, e⟩ | ⟨n, h, hl, e⟩ | ⟨h, hl, e⟩ <;> rw [e]
  · exact ⟨natval tok, [], by simp [State.retire_eq], .inl ⟨h, rfl, rfl⟩⟩
  · exact ⟨n, [], by simp [State.retire_eq], .inr (.inl ⟨h, hl, rfl⟩)⟩
  · exact ⟨s.pc, _, rfl, .inr (.inr ⟨h, hl, rfl, rfl⟩)⟩

theorem State.advance_eq (s : State) :
    s.advance = .next { s with
      pc := s.pc + 1, instructionCount := s.instructionCount + 1, cycleCount := s.cycleCount + 1 } := rfl

theorem State.regsEqual_iff (s : State) (rs1 rs2 : RegIdx) :
    s.regsEqual rs1 rs2 = true ↔ s.readReg rs1 = s.readReg rs2 := by
  simp [State.regsEqual]

/-! ### The Label Table -/

theorem LabelTable.index?_define (L : LabelTable) (name q : Token) (i : Nat) :
    (L.define name i).index? q = if q = name then some i else L.index? q := by
  unfold LabelTable.define
  induction L with
  | nil => by_cases h : q = name <;> simp [LabelTable.index?, h]
  | cons e rest ih =>
    obtain ⟨n, k⟩ := e
    by_cases hn : n = name
    · subst hn
      by_cases hq : q = n
      · simpa [hq] using ih
      · simpa [hq, LabelTable.index?] using ih
    · by_cases hq : q = n
      · subst hq
        simp [hn, LabelTable.index?]
      · simpa [hn, hq, LabelTable.index?] using ih

/-- What scanning one slot does to the binding of a name. -/
theorem LabelTable.index?_scan (L : LabelTable) (i : Nat) (line : TokenLine) (q : Token) :
    (L.scan i line).index? q = if decode line = .labelDef q then some i else L.index? q := by
  unfold LabelTable.scan
  cases h : decode line with
  | labelDef name =>
    simp only [Slot.labelName?, LabelTable.index?_define, Slot.labelDef.injEq, eq_comm]
  | unknown _ => simp [Slot.labelName?]
  | malformed _ _ => simp [Slot.labelName?]
  | instr _ => simp [Slot.labelName?]

/-- Slot `k` of `prog` is the last one that defines `name`. -/
def DefinesLast (prog : List TokenLine) (name : Token) (k : Nat) : Prop :=
  (∃ line, prog[k]? = some line ∧ decode line = .labelDef name) ∧
    ∀ (m : Nat) (line : TokenLine), k < m → prog[m]? = some line → decode line ≠ .labelDef name

/-- The builder's pass leaves the binding of a name alone exactly where no slot defines it. -/
theorem scanLabels_index?_undefined (prog : List TokenLine) (i : Nat) (L : LabelTable) (name : Token)
    (h : ∀ line ∈ prog, decode line ≠ .labelDef name) :
    (scanLabels i L prog).index? name = L.index? name := by
  induction prog generalizing i L with
  | nil => rfl
  | cons line rest ih =>
    rw [scanLabels, ih _ _ fun l hl => h l (List.mem_cons_of_mem _ hl), LabelTable.index?_scan,
      if_neg (h line List.mem_cons_self)]

/-- The builder's pass binds a name to the last slot that defines it. -/
theorem scanLabels_index?_defined (prog : List TokenLine) (i k : Nat) (L : LabelTable) (name : Token)
    (h : DefinesLast prog name k) : (scanLabels i L prog).index? name = some (i + k) := by
  induction prog generalizing i k L with
  | nil => obtain ⟨⟨line, hl, -⟩, -⟩ := h; simp at hl
  | cons line rest ih =>
    obtain ⟨⟨l, hl, hd⟩, hlast⟩ := h
    rw [scanLabels]
    cases k with
    | zero =>
      obtain rfl : line = l := by simpa using hl
      rw [scanLabels_index?_undefined, LabelTable.index?_scan, if_pos hd, Nat.add_zero]
      intro l' hl'
      obtain ⟨m, hm⟩ := List.mem_iff_getElem?.mp hl'
      exact hlast (m + 1) l' (Nat.succ_pos m) (by simpa using hm)
    | succ k =>
      rw [ih (i + 1) k _ ⟨⟨l, by simpa using hl, hd⟩, fun m l' hm hl' =>
        hlast (m + 1) l' (Nat.succ_lt_succ hm) (by simpa using hl')⟩]
      congr 1
      omega

/-- A name that some slot defines has a last such slot. -/
theorem exists_definesLast {prog : List TokenLine} {name : Token} {line : TokenLine}
    (hm : line ∈ prog) (hd : decode line = .labelDef name) : ∃ k, DefinesLast prog name k := by
  induction prog generalizing line with
  | nil => cases hm
  | cons l rest ih =>
    by_cases h : ∃ l' ∈ rest, decode l' = .labelDef name
    · obtain ⟨l', hl', hd'⟩ := h
      obtain ⟨k, ⟨l'', hk, hdk⟩, hlast⟩ := ih hl' hd'
      refine ⟨k + 1, ⟨l'', by simpa using hk, hdk⟩, fun m l3 hm' hl3 => ?_⟩
      obtain ⟨m, rfl⟩ := Nat.exists_eq_add_of_lt (Nat.lt_of_le_of_lt (Nat.zero_le _) hm')
      exact hlast m l3 (by omega) (by simpa [Nat.add_comm] using hl3)
    · rcases List.mem_cons.mp hm with rfl | hm
      · refine ⟨0, ⟨line, rfl, hd⟩, fun m l3 hm' hl3 hd3 => h ⟨l3, ?_, hd3⟩⟩
        obtain ⟨m, rfl⟩ := Nat.exists_eq_add_of_lt hm'
        exact List.mem_iff_getElem?.mpr ⟨m, by simpa [Nat.add_comm] using hl3⟩
      · exact absurd ⟨line, hm, hd⟩ h

/-! ### Status (R38) -/

theorem State.status_running_iff (s : State) :
    s.status = .running ↔ s.fault = none ∧ s.pc < s.prog.length := by
  unfold State.status
  cases s.fault with
  | some f => simp
  | none => by_cases h : s.pc < s.prog.length <;> simp [h]

theorem State.status_halted_iff (s : State) :
    s.status = .halted ↔ s.fault = none ∧ s.prog.length ≤ s.pc := by
  unfold State.status
  cases s.fault with
  | some f => simp
  | none => by_cases h : s.pc < s.prog.length <;> simp [h]; omega

theorem State.status_faulted_iff (s : State) : s.status = .faulted ↔ s.fault ≠ none := by
  unfold State.status
  cases s.fault with
  | some f => simp
  | none => by_cases h : s.pc < s.prog.length <;> simp [h]

/-! ### The log -/

@[simp] theorem countDiags_append (c : DiagCode) (ds es : List Diag) :
    countDiags c (ds ++ es) = countDiags c ds + countDiags c es := by
  simp [countDiags]

@[simp] theorem countDiags_single (c : DiagCode) (d : Diag) :
    countDiags c [d] = if d.code = c then 1 else 0 := by
  simp [countDiags, List.countP_cons]

@[simp] theorem countDiags_nil (c : DiagCode) : countDiags c [] = 0 := rfl

end Sys2Proof.Machine
end

