-- ==== Sys2Proof/Laws/PerInstr.lean ====
section
/-! SUPPORT. The per-instruction family: the shape of each instruction's canonical slot. The host puts the nine
lemmas together by its own case split. -/

open Sys2Proof

namespace Sys2Proof.Laws.CanonicalSlot

/-- The encoded slot of `i` is its tag's mnemonic, which the decoder reads back as that tag, followed by an operand
count of that mnemonic's ARITY (R78, R80, R86), and the record of R79 carries the same tag. -/
def Statement (i : Instr) : Prop :=
  ∃ ops, encode i = i.tag.mnemonic :: ops ∧ ops.length ∈ i.tag.arity ∧
    tagOf i.tag.mnemonic = some i.tag ∧ i.decoded.tag = i.tag

theorem add (rd rs1 rs2 : RegIdx) : Statement (.add rd rs1 rs2) :=
  ⟨_, rfl, by simp [Tag.arity, Tag.formats, Instr.tag], tagOf_mnemonic _, rfl⟩

theorem sub (rd rs1 rs2 : RegIdx) : Statement (.sub rd rs1 rs2) :=
  ⟨_, rfl, by simp [Tag.arity, Tag.formats, Instr.tag], tagOf_mnemonic _, rfl⟩

theorem addi (rd rs1 : RegIdx) (imm : Int) : Statement (.addi rd rs1 imm) :=
  ⟨_, rfl, by simp [Tag.arity, Tag.formats, Instr.tag], tagOf_mnemonic _, rfl⟩

theorem li (rd : RegIdx) (imm : Int) : Statement (.li rd imm) :=
  ⟨_, rfl, by simp [Tag.arity, Tag.formats, Instr.tag], tagOf_mnemonic _, rfl⟩

theorem lw (rd : RegIdx) (offset : Int) (rs1 : RegIdx) : Statement (.lw rd offset rs1) :=
  ⟨_, rfl, by simp [Tag.arity, Tag.formats, Instr.tag], tagOf_mnemonic _, rfl⟩

theorem sw (rs2 : RegIdx) (offset : Int) (rs1 : RegIdx) : Statement (.sw rs2 offset rs1) :=
  ⟨_, rfl, by simp [Tag.arity, Tag.formats, Instr.tag], tagOf_mnemonic _, rfl⟩

theorem beq (rs1 rs2 : RegIdx) (target : Token) : Statement (.beq rs1 rs2 target) :=
  ⟨_, rfl, by simp [Tag.arity, Tag.formats, Instr.tag], tagOf_mnemonic _, rfl⟩

theorem jal (rd : RegIdx) (target : Token) : Statement (.jal rd target) :=
  ⟨_, rfl, by simp [Tag.arity, Tag.formats, Instr.tag], tagOf_mnemonic _, rfl⟩

theorem j (target : Token) : Statement (.j target) :=
  ⟨_, rfl, by simp [Tag.arity, Tag.formats, Instr.tag], tagOf_mnemonic _, rfl⟩

end Sys2Proof.Laws.CanonicalSlot
end

