-- ==== Sys2Proof/Laws/Step.lean ====
section
/-! SUPPORT. What one instruction and one step can do: an equation for each meaning, and the inversion of
`step` that the proofs of invariants start from. -/

namespace Sys2Proof.Machine

/-! ### The meanings, each as one record -/

theorem execAdd_eq (rd rs1 rs2 : RegIdx) (s : State) :
    execAdd rd rs1 rs2 s = .next { s with
      x := s.x.set rd (wrap (sval (s.readReg rs1) + sval (s.readReg rs2))), pc := s.pc + 1,
      instructionCount := s.instructionCount + 1, cycleCount := s.cycleCount + 1 } := rfl

theorem execSub_eq (rd rs1 rs2 : RegIdx) (s : State) :
    execSub rd rs1 rs2 s = .next { s with
      x := s.x.set rd (wrap (sval (s.readReg rs1) - sval (s.readReg rs2))), pc := s.pc + 1,
      instructionCount := s.instructionCount + 1, cycleCount := s.cycleCount + 1 } := rfl

theorem execAddi_eq (rd rs1 : RegIdx) (imm : Int) (s : State) :
    execAddi rd rs1 imm s = .next { s with
      x := s.x.set rd (wrap (sval (s.readReg rs1) + imm)), pc := s.pc + 1,
      instructionCount := s.instructionCount + 1, cycleCount := s.cycleCount + 1 } := rfl

theorem execLi_eq (rd : RegIdx) (imm : Int) (s : State) :
    execLi rd imm s = .next { s with
      x := s.x.set rd (wrap imm), pc := s.pc + 1,
      instructionCount := s.instructionCount + 1, cycleCount := s.cycleCount + 1 } := rfl

theorem execLw_eq (rd : RegIdx) (offset : Int) (rs1 : RegIdx) (s : State) :
    execLw rd offset rs1 s = .next { s with
      x := s.x.set rd (s.memRead (s.effectiveAddr rs1 offset)), pc := s.pc + 1,
      memoryAccesses := s.memoryAccesses + 1,
      instructionCount := s.instructionCount + 1, cycleCount := s.cycleCount + 1 } := rfl

theorem execSw_eq (rs2 : RegIdx) (offset : Int) (rs1 : RegIdx) (s : State) :
    execSw rs2 offset rs1 s = .next { s with
      mem := s.mem.insert (s.effectiveAddr rs1 offset) (s.readReg rs2), pc := s.pc + 1,
      memoryAccesses := s.memoryAccesses + 1,
      instructionCount := s.instructionCount + 1, cycleCount := s.cycleCount + 1 } := rfl

theorem execBeq_taken {rs1 rs2 : RegIdx} {s : State} (target : Token)
    (h : s.readReg rs1 = s.readReg rs2) : execBeq rs1 rs2 target s = s.redirect target := by
  simp [execBeq, (State.regsEqual_iff s rs1 rs2).mpr h]

theorem execBeq_notTaken {rs1 rs2 : RegIdx} {s : State} (target : Token)
    (h : s.readReg rs1 ≠ s.readReg rs2) : execBeq rs1 rs2 target s = s.advance := by
  have : s.regsEqual rs1 rs2 = false := by
    simpa using mt (State.regsEqual_iff s rs1 rs2).mp h
  simp [execBeq, this]

/-- What every instruction does, whichever it is, as a relation between the state before and the state after: it
keeps the program, the Label Table and the fault record, and counts one instruction and one cycle. At most one
memory word changes, at most one record is logged, and an instruction that logs makes no memory access. -/
def InstrEffect (i : Instr) (s t : State) : Prop :=
  t.prog = s.prog ∧ t.labels = s.labels ∧ t.fault = s.fault ∧
  t.instructionCount = s.instructionCount + 1 ∧ t.cycleCount = s.cycleCount + 1 ∧
  (t.mem = s.mem ∨ ∃ a v, t.mem = s.mem.insert a v) ∧
  ((t.diags = s.diags ∧
      (t.memoryAccesses = s.memoryAccesses ∨ t.memoryAccesses = s.memoryAccesses + 1)) ∨
    (t.memoryAccesses = s.memoryAccesses ∧ t.pc = s.pc ∧ ∃ tok, i.target? = some tok ∧
      t.diags = s.diags ++ [⟨.labelNotFound, s.pc, tok⟩] ∧
      isNumeral tok = false ∧ s.labels.index? tok = none))

/-- A redirect from a state that differs from `s` only in its registers has the effect of an instruction. -/
theorem redirect_effect (i : Instr) (s : State) (regs : Vector Word 32) (tok : Token)
    (ht : i.target? = some tok) :
    ∃ t, ({ s with x := regs } : State).redirect tok = .next t ∧ InstrEffect i s t := by
  obtain ⟨n, ds, e, hcase⟩ := State.redirect_cases { s with x := regs } tok
  refine ⟨_, e, rfl, rfl, rfl, rfl, rfl, .inl rfl, ?_⟩
  rcases hcase with ⟨-, -, rfl⟩ | ⟨-, -, rfl⟩ | ⟨hn, hi, rfl, rfl⟩
  · exact .inl ⟨List.append_nil _, .inl rfl⟩
  · exact .inl ⟨List.append_nil _, .inl rfl⟩
  · exact .inr ⟨rfl, rfl, tok, ht, rfl, hn, hi⟩

/-- Every instruction completes, in every state, with that effect. -/
theorem exec_cases (i : Instr) (s : State) : ∃ t, exec i s = .next t ∧ InstrEffect i s t := by
  cases i with
  | add rd rs1 rs2 => exact ⟨_, rfl, rfl, rfl, rfl, rfl, rfl, .inl rfl, .inl ⟨rfl, .inl rfl⟩⟩
  | sub rd rs1 rs2 => exact ⟨_, rfl, rfl, rfl, rfl, rfl, rfl, .inl rfl, .inl ⟨rfl, .inl rfl⟩⟩
  | addi rd rs1 imm => exact ⟨_, rfl, rfl, rfl, rfl, rfl, rfl, .inl rfl, .inl ⟨rfl, .inl rfl⟩⟩
  | li rd imm => exact ⟨_, rfl, rfl, rfl, rfl, rfl, rfl, .inl rfl, .inl ⟨rfl, .inl rfl⟩⟩
  | lw rd offset rs1 => exact ⟨_, rfl, rfl, rfl, rfl, rfl, rfl, .inl rfl, .inl ⟨rfl, .inr rfl⟩⟩
  | sw rs2 offset rs1 =>
    exact ⟨_, rfl, rfl, rfl, rfl, rfl, rfl, .inr ⟨_, _, rfl⟩, .inl ⟨rfl, .inr rfl⟩⟩
  | beq rs1 rs2 tok =>
    by_cases h : s.readReg rs1 = s.readReg rs2
    · obtain ⟨t, e, ht⟩ := redirect_effect (.beq rs1 rs2 tok) s s.x tok rfl
      exact ⟨t, (execBeq_taken tok h).trans e, ht⟩
    · exact ⟨_, (execBeq_notTaken tok h).trans s.advance_eq, rfl, rfl, rfl, rfl, rfl, .inl rfl,
        .inl ⟨rfl, .inl rfl⟩⟩
  | jal rd tok => exact redirect_effect (.jal rd tok) s (s.x.set rd (returnAddress s.pc)) tok rfl
  | j tok => exact redirect_effect (.j tok) s s.x tok rfl

/-! ### One step -/

theorem State.fetch_eq {s : State} {line : TokenLine} (h : s.prog[s.pc]? = some line) :
    s.fetch = line := by
  simp [State.fetch, List.getD_eq_getElem?_getD, h]

/-- A Running engine has a slot to fetch. -/
theorem State.fetch_of_running {s : State} (h : s.status = .running) :
    s.prog[s.pc]? = some s.fetch := by
  have hlt := (State.status_running_iff s).mp h |>.2
  simp [State.fetch, List.getD_eq_getElem?_getD, List.getElem?_eq_getElem hlt]

/-- The step of a Running engine. -/
theorem step_of_running {s : State} (h : s.status = .running) :
    step s = execSlot (decode s.fetch) s := by
  simp [step, engineStep, h]

/-- The step of an engine that is Halted or Faulted. -/
theorem step_of_notRunning {s : State} (h : s.status ≠ .running) : step s = .next s := by
  unfold step engineStep
  cases hs : s.status with
  | running => exact absurd hs h
  | halted => rfl
  | faulted => rfl

/-- Everything a step can do. -/
theorem step_cases (s : State) :
    (s.status ≠ .running ∧ step s = .next s) ∨
    (s.status = .running ∧ s.prog[s.pc]? = some s.fetch ∧
      ((∃ name, decode s.fetch = .labelDef name ∧ step s = .next s.skipLabel) ∨
       (∃ opcode, decode s.fetch = .unknown opcode ∧ step s = .next (s.skipUnknown opcode)) ∨
       (∃ opcode r, decode s.fetch = .malformed opcode r ∧ step s = .next (s.raiseMalformed opcode r)) ∨
       (∃ i, decode s.fetch = .instr i ∧ step s = exec i s))) := by
  by_cases h : s.status = .running
  · refine .inr ⟨h, State.fetch_of_running h, ?_⟩
    rw [step_of_running h]
    cases hd : decode s.fetch with
    | labelDef name => exact .inl ⟨name, rfl, rfl⟩
    | unknown opcode => exact .inr (.inl ⟨opcode, rfl, rfl⟩)
    | malformed opcode r => exact .inr (.inr (.inl ⟨opcode, r, rfl, rfl⟩))
    | instr i => exact .inr (.inr (.inr ⟨i, rfl, rfl⟩))
  · exact .inl ⟨h, step_of_notRunning h⟩

end Sys2Proof.Machine
end

