-- ==== Sys2Proof/Tests/Slice0.lean ====
section
/-! SUPPORT. The model's own tests. Every expected value is taken from `95_test_vectors.md` (the vector's number
stands in the comment) or worked out by hand from the rule named; the witnesses at the end meet the hypotheses of the
statements that have some. -/

namespace Sys2Proof.Tests

open Sys2Proof.Machine Sys2Proof.Claims

/-! ### Helpers -/

/-- The state after an outcome; the state given where there is none. -/
def after (s : State) : Host.Outcome State Fault Refusal → State
  | .next t    => t
  | .fault _   => s
  | .refused _ => s

/-- `s` after one instruction. -/
def run1 (i : Instr) (s : State) : State := after s (exec i s)

/-- `s` after one step. -/
def step1 (s : State) : State := after s (step s)

/-- The reset state with some registers set. -/
def regs (l : List (RegIdx × Int)) : State := l.foldl (fun s p => s.writeReg p.1 (wrap p.2)) State.reset

/-! ### WellFormed refuses an ill-formed term for each check -/

theorem test_wf_accepts : (Instr.beq 1 2 "done").wf = true ∧ (Instr.add 0 0 0).wf = true := by decide

theorem test_wf_refuses_empty_target : (Instr.j "").wf = false := by decide

theorem test_wf_refuses_whitespace : (Instr.jal 1 "a b").wf = false := by decide

theorem test_wf_refuses_comma : (Instr.beq 1 2 "a,b").wf = false := by decide

theorem test_wf_refuses_slot : slotWf ["li", "x1", ""] = false := by decide

/-! ### Decoding: slots written out from R78 and from section 2 of the vectors -/

-- DE8, DE11
theorem test_decode_add : decode ["ADD", "x1", "x2", "x3"] = .instr (.add 1 2 3) ∧
    decode ["add", "x01", "x0", "x031"] = .instr (.add 1 0 31) := by decide

-- R78 RRR, operand order rd rs1 rs2
theorem test_decode_sub : decode ["sub", "x3", "x1", "x2"] = .instr (.sub 3 1 2) := by decide

-- DE9
theorem test_decode_addi : decode ["aDdI", "X1", "2", "-3"] = .instr (.addi 1 2 (-3)) := by decide

-- DE10, DE12
theorem test_decode_li : decode ["li", "5", "7"] = .instr (.li 5 7) ∧
    decode ["li", "x1", "+007"] = .instr (.li 1 7) := by decide

-- R78 LOAD: t1 = rd, t2 = offset, t3 = rs1
theorem test_decode_lw : decode ["lw", "x8", "0", "x3"] = .instr (.lw 8 0 3) := by decide

-- R78 STORE: t1 = rs2, t2 = offset, t3 = rs1
theorem test_decode_sw : decode ["sw", "x7", "-8", "x3"] = .instr (.sw 7 (-8) 3) := by decide

-- DE33
theorem test_decode_beq : decode ["beq", "x1", "x2", "-1"] = .instr (.beq 1 2 "-1") := by decide

-- DE29, DE31
theorem test_decode_jal : decode ["jal", "x5"] = .instr (.jal 1 "x5") ∧
    decode ["jal", "x5", "x6"] = .instr (.jal 5 "x6") := by decide

-- R78 JUMP
theorem test_decode_j : decode ["J", "Loop"] = .instr (.j "Loop") := by decide

-- DE2, DE3, DE5, and DE6, DE7 that are no label
theorem test_decode_label : decode ["loop:"] = .labelDef "loop" ∧ decode [":"] = .labelDef "" ∧
    decode ["add:"] = .labelDef "add" ∧ decode ["Loop:", "add", "x1", "x2", "x3"] = .unknown "Loop:" ∧
    decode ["foo:", "bar:"] = .unknown "foo:" := by decide

-- DE26, DE27, DE28
theorem test_decode_unknown : decode ["mul", "x1", "x2", "x3"] = .unknown "mul" ∧
    decode ["nop"] = .unknown "nop" ∧ decode ["mul"] = .unknown "mul" := by decide

-- DE1, DE13, DE14, DE15, DE16
theorem test_decode_count : decode [] = .malformed none .empty ∧
    decode ["add", "x1", "x2"] = .malformed (some "add") .operandCount ∧
    decode ["j"] = .malformed (some "j") .operandCount ∧
    decode ["j", "a", "b"] = .malformed (some "j") .operandCount ∧
    decode ["lw", "x1", "0(x2)"] = .malformed (some "lw") .operandCount := by decide

-- DE17, DE18, DE19, DE24, DE25, DE32
theorem test_decode_register_faults :
    decode ["add", "x32", "x0", "x0"] = .malformed (some "add") .registerRange ∧
    decode ["add", "ra", "x0", "x0"] = .malformed (some "add") .badRegister ∧
    decode ["li", "x-1", "0"] = .malformed (some "li") .badRegister ∧
    decode ["addi", "x99", "y", "z"] = .malformed (some "addi") .registerRange ∧
    decode ["addi", "y", "x99", "z"] = .malformed (some "addi") .badRegister ∧
    decode ["jal", "ra", "f"] = .malformed (some "jal") .badRegister := by decide

-- DE20, DE21, DE22, DE23
theorem test_decode_immediate_faults :
    decode ["addi", "x1", "x0", "0x10"] = .malformed (some "addi") .badImmediate ∧
    decode ["li", "x1", "1.5"] = .malformed (some "li") .badImmediate ∧
    decode ["li", "x1", "-"] = .malformed (some "li") .badImmediate ∧
    decode ["sw", "x1", "x2", "x3"] = .malformed (some "sw") .badImmediate := by decide

-- R79: JAL-1 sets rd := 1, and a field the format lacks is 0
theorem test_decoded_record :
    (decode ["jal", "x5"]).instr?.map Instr.decoded = some ⟨.jal, 1, 0, 0, 0, "x5"⟩ ∧
    (decode ["sw", "x7", "4", "x2"]).instr?.map Instr.decoded = some ⟨.sw, 0, 2, 7, 4, ""⟩ := by decide

-- the table word of "li x5 10" and of "add x7, x5, x6", first character in the lowest byte
theorem test_table_word : decodeTableWord 64 3472592201700108652 = some (.li 5 10) ∧
    decodeTableWord 112 1104767455064453620660093334086753 = some (.add 7 5 6) ∧
    decodeTableWord 0 0 = none := by decide

/-! ### One step of each instruction (sections 3, 4 and 5 of the vectors) -/

-- AL2
theorem test_add_wraps : sval ((run1 (.add 1 2 3) (regs [(2, 2147483647), (3, 1)])).readReg 1) = -2147483648 := by
  decide

-- AL5
theorem test_add_same_register : sval ((run1 (.add 3 3 3) (regs [(3, 5)])).readReg 3) = 10 := by decide

-- AL7
theorem test_sub_order : sval ((run1 (.sub 3 1 2) (regs [(1, 3), (2, 5)])).readReg 3) = -2 := by decide

-- AL9
theorem test_sub_minimum : sval ((run1 (.sub 1 0 2) (regs [(2, -2147483648)])).readReg 1) = -2147483648 := by decide

-- AL12
theorem test_addi_modulo : sval ((run1 (.addi 1 1 4294967296) (regs [(1, 9)])).readReg 1) = 9 := by decide

-- AL14: x0 is writable
theorem test_addi_x0 : sval ((run1 (.addi 1 0 5) (regs [(0, 3)])).readReg 1) = 8 := by decide

-- AL17, AL19
theorem test_li_wraps : sval ((run1 (.li 1 4294967295) State.reset).readReg 1) = -1 ∧
    sval ((run1 (.li 1 (-2147483649)) State.reset).readReg 1) = 2147483647 := by decide

-- AL21
theorem test_li_x0 : sval ((run1 (.li 0 7) State.reset).readReg 0) = 7 := by decide

-- LS7: the address comes from the old x1
theorem test_lw_same_register :
    sval ((run1 (.lw 1 0 1) ((regs [(1, 4)]).memWrite 4 77)).readReg 1) = 77 := by decide

-- LS3: an unpopulated address reads 0 and stays unpopulated
theorem test_lw_unpopulated : (run1 (.lw 1 5 0) (regs [(1, 9)])).readReg 1 = 0 ∧
    (run1 (.lw 1 5 0) State.reset).mem = [] ∧ (run1 (.lw 1 5 0) State.reset).memoryAccesses = 1 := by decide

-- LS8: the effective address does not wrap
theorem test_sw_exact_address :
    (run1 (.sw 5 1 1) (regs [(1, 2147483647), (5, 1)])).mem = [(2147483648, 1)] := by decide

-- LS4: storing 0 populates
theorem test_sw_zero : (run1 (.sw 0 3 0) State.reset).mem = [(3, 0)] := by decide

-- CT1 and CT2, at slot 4
theorem test_beq_taken_or_not :
    (run1 (.beq 1 2 "done") { regs [(1, 7), (2, 7)] with pc := 4, labels := [("done", 8)] }).pc = 8 ∧
    (run1 (.beq 1 2 "done") { regs [(1, 7), (2, 6)] with pc := 4, labels := [("done", 8)] }).pc = 5 := by decide

-- CT3 and CT4, at slot 4
theorem test_beq_undefined :
    (run1 (.beq 1 2 "nowhere") { regs [(1, 7), (2, 6)] with pc := 4 }).diags = [] ∧
    (run1 (.beq 1 2 "nowhere") { State.reset with pc := 4 }).pc = 4 ∧
    (run1 (.beq 1 2 "nowhere") { State.reset with pc := 4 }).diags = [⟨.labelNotFound, 4, "nowhere"⟩] := by decide

-- CT11, at slot 2
theorem test_jal_links : (run1 (.jal 1 "sub") { State.reset with pc := 2, labels := [("sub", 6)] }).readReg 1 = 3 ∧
    (run1 (.jal 1 "sub") { State.reset with pc := 2, labels := [("sub", 6)] }).pc = 6 := by decide

-- CT15, at slot 2: the link is written although the label is not found
theorem test_jal_undefined : (run1 (.jal 1 "nowhere") { State.reset with pc := 2 }).readReg 1 = 3 ∧
    (run1 (.jal 1 "nowhere") { State.reset with pc := 2 }).pc = 2 := by decide

-- CT6 by R111: the numeral 3 wins over the label named 3
theorem test_j_numeral_first : (run1 (.j "3") { State.reset with pc := 9, labels := [("3", 0)] }).pc = 3 := by decide

-- CT20: labels are case-sensitive
theorem test_j_case : (run1 (.j "Loop") { State.reset with labels := [("loop", 3)] }).diags =
    [⟨.labelNotFound, 0, "Loop"⟩] := by decide

/-! ### The engine (section 6) and the host's side (section 7) -/

-- EN1, EN2
theorem test_skips : (step1 (State.load [["loop:"]])).pc = 1 ∧ (step1 (State.load [["loop:"]])).cycleCount = 0 ∧
    (step1 (State.load [["nop"]])).cycleCount = 1 ∧ (step1 (State.load [["nop"]])).instructionCount = 0 ∧
    (step1 (State.load [["nop"]])).diags = [⟨.unknownInstruction, 0, "nop"⟩] := by decide

-- EN4, EN5
theorem test_malformed : (step1 (State.load [["add", "x1"]])).fault = some ⟨0, some "add", .operandCount⟩ ∧
    (step1 (State.load [["add", "x1"]])).pc = 0 ∧ (step1 (State.load [["add", "x1"]])).status = .faulted ∧
    (step1 (State.load [[]])).fault = some ⟨0, none, .empty⟩ := by decide

-- EN7: the empty program is Halted at reset
theorem test_reset_halted : State.reset.status = .halted := by decide

-- EN8: the last definition wins
theorem test_labels : buildLabels [["a:"], ["a:"], ["j", "a"]] = [("a", 1)] ∧
    distinctLabels [["a:"], ["a:"], ["j", "a"]] = false := by decide

-- section 4, snapshot order: writes to 5, -3 and 0
theorem test_snapshot_order :
    ((((State.reset.memWrite 5 1).memWrite (-3) 2).memWrite 0 3).snapshot.memory.map Prod.fst) = [-3, 0, 5] := by
  decide

-- S2: one step of the program whose only slot is `j missing`
theorem test_missing_label : (step1 (State.load [["j", "missing"]])).pc = 0 ∧
    (step1 (State.load [["j", "missing"]])).diags = [⟨.labelNotFound, 0, "missing"⟩] := by decide

-- RS2: `Load` discards everything
theorem test_load_total :
    hostAct (.load [["l:"]]) { regs [(5, 9)] with mem := [(0, 1)], fault := some ⟨0, none, .empty⟩ } =
      State.load [["l:"]] := by decide

-- a placed word runs as the very next step
theorem test_withFetchWord :
    (step1 (State.reset.withFetchWord 64 3472592201700108652)).readReg 5 = 10 := by decide

/-! ### Witnesses: states and operands that meet the hypotheses of the statements -/

theorem registerToken_31 : RegisterToken "X031" (31 : RegIdx).val := ⟨"X", "031", by decide, by decide, by decide, by decide⟩

theorem registerToken_0 : RegisterToken "0" (0 : RegIdx).val := ⟨"", "0", by decide, by decide, by decide, by decide⟩

theorem immediateToken_big : ImmediateToken "-4294967296" (-4294967296) :=
  ⟨"-", "4294967296", by decide, by decide, .inr ⟨rfl, by decide⟩⟩

theorem not_fits_32 : ¬ Fits .reg "x32" := by rw [fits_reg_iff]; decide

theorem not_fits_fraction : ¬ Fits .imm "1.5" := by rw [fits_imm_iff]; decide

/-- AddWritesWrappedSum: the decoding clause at registers 0 and 31, and the rejection clause at register 32. -/
theorem witness_AddWritesWrappedSum :
    (lower "ADD" = "add" ∧ RegisterToken "X031" (31 : RegIdx).val ∧ RegisterToken "0" (0 : RegIdx).val) ∧
    ∀ cs ∈ [[FieldClass.reg, .reg, .reg]], ¬ List.Forall₂ Fits cs ["x1", "x2", "x32"] := by
  refine ⟨⟨by decide, registerToken_31, registerToken_0⟩, fun cs h => ?_⟩
  obtain rfl := List.mem_singleton.mp h
  simp [not_fits_32]

/-- SubWritesWrappedDifference: as for ADD, with a missing operand in the rejection clause. -/
theorem witness_SubWritesWrappedDifference :
    (lower "Sub" = "sub" ∧ RegisterToken "X031" (31 : RegIdx).val ∧ RegisterToken "0" (0 : RegIdx).val) ∧
    ∀ cs ∈ [[FieldClass.reg, .reg, .reg]], ¬ List.Forall₂ Fits cs ["x1", "x2"] := by
  refine ⟨⟨by decide, registerToken_31, registerToken_0⟩, fun cs h => ?_⟩
  obtain rfl := List.mem_singleton.mp h
  simp

/-- AddiAddsUnboundedImmediate: an immediate outside 32 bits, and a fraction in the rejection clause. -/
theorem witness_AddiAddsUnboundedImmediate :
    (lower "aDdI" = "addi" ∧ RegisterToken "X031" (31 : RegIdx).val ∧ RegisterToken "0" (0 : RegIdx).val ∧
      ImmediateToken "-4294967296" (-4294967296)) ∧
    ∀ cs ∈ [[FieldClass.reg, .reg, .imm]], ¬ List.Forall₂ Fits cs ["x1", "x2", "1.5"] := by
  refine ⟨⟨by decide, registerToken_31, registerToken_0, immediateToken_big⟩, fun cs h => ?_⟩
  obtain rfl := List.mem_singleton.mp h
  simp [not_fits_fraction]

/-- LiLoadsWrappedImmediate. -/
theorem witness_LiLoadsWrappedImmediate :
    (lower "LI" = "li" ∧ RegisterToken "X031" (31 : RegIdx).val ∧ ImmediateToken "-4294967296" (-4294967296)) ∧
    ∀ cs ∈ [[FieldClass.reg, .imm]], ¬ List.Forall₂ Fits cs ["x32", "0"] := by
  refine ⟨⟨by decide, registerToken_31, immediateToken_big⟩, fun cs h => ?_⟩
  obtain rfl := List.mem_singleton.mp h
  simp [not_fits_32]

/-- LwLoadsWordOrZero. -/
theorem witness_LwLoadsWordOrZero :
    (lower "Lw" = "lw" ∧ RegisterToken "X031" (31 : RegIdx).val ∧ ImmediateToken "-4294967296" (-4294967296) ∧
      RegisterToken "0" (0 : RegIdx).val) ∧
    ∀ cs ∈ [[FieldClass.reg, .imm, .reg]], ¬ List.Forall₂ Fits cs ["x1", "0(x2)"] := by
  refine ⟨⟨by decide, registerToken_31, immediateToken_big, registerToken_0⟩, fun cs h => ?_⟩
  obtain rfl := List.mem_singleton.mp h
  simp

/-- SwStoresWordAtExactAddress. -/
theorem witness_SwStoresWordAtExactAddress :
    (lower "sW" = "sw" ∧ RegisterToken "X031" (31 : RegIdx).val ∧ ImmediateToken "-4294967296" (-4294967296) ∧
      RegisterToken "0" (0 : RegIdx).val) ∧
    ∀ cs ∈ [[FieldClass.reg, .imm, .reg]], ¬ List.Forall₂ Fits cs ["x1", "1.5", "x2"] := by
  refine ⟨⟨by decide, registerToken_31, immediateToken_big, registerToken_0⟩, fun cs h => ?_⟩
  obtain rfl := List.mem_singleton.mp h
  simp [not_fits_fraction]

/-- BeqRedirectsExactlyWhenEqual: both sides of the comparison occur. -/
theorem witness_BeqRedirectsExactlyWhenEqual :
    (lower "BEQ" = "beq" ∧ RegisterToken "X031" (31 : RegIdx).val ∧ RegisterToken "0" (0 : RegIdx).val) ∧
    (∀ cs ∈ [[FieldClass.reg, .reg, .label]], ¬ List.Forall₂ Fits cs ["x32", "x0", "L"]) ∧
    (regs [(1, 7)]).readReg 1 ≠ (regs [(1, 7)]).readReg 31 ∧ State.reset.readReg 0 = State.reset.readReg 31 := by
  refine ⟨⟨by decide, registerToken_31, registerToken_0⟩, fun cs h => ?_, by decide, by decide⟩
  obtain rfl := List.mem_singleton.mp h
  simp [not_fits_32]

/-- JalLinksFollowingSlotAndRedirects: both forms, and a slot that fits neither. -/
theorem witness_JalLinksFollowingSlotAndRedirects :
    (lower "Jal" = "jal" ∧ RegisterToken "X031" (31 : RegIdx).val) ∧
    ∀ cs ∈ [[FieldClass.label], [.reg, .label]], ¬ List.Forall₂ Fits cs ["x32", "f"] := by
  refine ⟨⟨by decide, registerToken_31⟩, fun cs h => ?_⟩
  rcases List.mem_cons.mp h with rfl | h
  · simp
  · obtain rfl := List.mem_singleton.mp h
    simp [not_fits_32]

/-- JRedirectsAndWritesNoRegister. -/
theorem witness_JRedirectsAndWritesNoRegister :
    lower "J" = "j" ∧ ∀ cs ∈ [[FieldClass.label]], ¬ List.Forall₂ Fits cs ["a", "b"] := by
  refine ⟨by decide, fun cs h => ?_⟩
  obtain rfl := List.mem_singleton.mp h
  simp

/-- DecodeOfEncodeIsTheInstruction: a well-formed instruction with a label and one with a negative immediate. -/
theorem witness_DecodeOfEncodeIsTheInstruction :
    (Instr.jal 31 "x5").wf = true ∧ (Instr.li 0 (-4294967296)).wf = true ∧
    encode (.li 0 (-4294967296)) = ["li", "x0", "-4294967296"] := by decide

/-- OpcodeMatchIgnoresCase: two spellings of one mnemonic, and a slot that decodes. -/
theorem witness_OpcodeMatchIgnoresCase :
    lower "Add" = lower "aDD" ∧ decode ["Add", "x1", "x2", "x3"] = .instr (.add 1 2 3) := by decide

/-- LabelDefinitionIsOneTokenWithFinalColon: both sides at a name that is itself a mnemonic. -/
theorem witness_LabelDefinitionIsOneTokenWithFinalColon :
    decode ["add:"] = .labelDef "add" ∧ ["add:"] = ["add" ++ ":"] := by decide

/-- UnknownIsEveryOtherMnemonic: a slot that is Unknown, and the same token with a colon, which is not. -/
theorem witness_UnknownIsEveryOtherMnemonic :
    decode ["mul:", "x1"] = .unknown "mul:" ∧ decode ["mul:"] = .labelDef "mul" ∧ lower "mul" ∉ mnemonics := by
  decide

/-- OperandCountFaultExactlyOutsideArity: for JAL the counts 0 and 3 are outside and 1 and 2 inside. -/
theorem witness_OperandCountFaultExactlyOutsideArity :
    lower "JAL" = Tag.jal.mnemonic ∧ 0 ∉ arity .jal ∧ 1 ∈ arity .jal ∧ 2 ∈ arity .jal ∧ 3 ∉ arity .jal := by decide

/-- LeftmostOperandFaultIsReported: a slot with two faulty operands, one with the last faulty, one with none. -/
theorem witness_LeftmostOperandFaultIsReported :
    lower "addi" = Tag.addi.mnemonic ∧ [FieldClass.reg, .reg, .imm] ∈ Tag.addi.formats ∧
    firstFault [.reg, .reg, .imm] ["x99", "y", "z"] = some .registerRange ∧
    firstFault [.reg, .reg, .imm] ["x31", "x0", "z"] = some .badImmediate ∧
    firstFault [.reg, .reg, .imm] ["x31", "x0", "+0"] = none := by decide

/-- StepRunsTheFetchedSlot: a Running state for each of the four classes. -/
theorem witness_StepRunsTheFetchedSlot :
    (State.load [["a:"]]).fault = none ∧ (State.load [["a:"]]).prog[(State.load [["a:"]]).pc]? = some ["a:"] ∧
    decode ["a:"] = .labelDef "a" ∧ (State.load [["nop"]]).prog[0]? = some ["nop"] ∧
    decode ["nop"] = .unknown "nop" ∧ decode ["j"] = .malformed (some "j") .operandCount ∧
    decode ["j", "0"] = .instr (.j "0") := by decide

/-- OnlyRunningEngineChanges: a Faulted state, a Halted one at the boundary pc = N, and a Running one below it. -/
theorem witness_OnlyRunningEngineChanges :
    (State.reset.raiseMalformed none .empty).fault ≠ none ∧
    ({ State.load [["a:"]] with pc := 1 } : State).prog.length ≤ ({ State.load [["a:"]] with pc := 1 } : State).pc ∧
    (State.load [["a:"]]).pc < (State.load [["a:"]]).prog.length := by decide

/-- StepKeepsInvariant: reset meets the invariant, and so does a state with a populated address; both step. -/
theorem witness_StepKeepsInvariant : (State.reset.Inv ∧ ∃ t, step State.reset = .next t) ∧
    ({ State.load [["sw", "x0", "3", "x0"], ["nop"]] with
      pc := 1, mem := [(3, 0)], memoryAccesses := 1, instructionCount := 1, cycleCount := 1 } : State).Inv ∧
    ∃ t, step { State.load [["sw", "x0", "3", "x0"], ["nop"]] with
      pc := 1, mem := [(3, 0)], memoryAccesses := 1, instructionCount := 1, cycleCount := 1 } = .next t := by
  refine ⟨⟨⟨List.Pairwise.nil, rfl, rfl, Nat.le_refl _, fun d h => (List.not_mem_nil h).elim,
    fun f h => nomatch h⟩, _, rfl⟩, ⟨List.pairwise_singleton _ _, rfl, rfl, by decide,
    fun d h => (List.not_mem_nil h).elim, fun f h => nomatch h⟩, _, rfl⟩

/-- LoadResetsEveryElement: a state that is not fresh, loaded with the empty and with another program. -/
theorem witness_LoadResetsEveryElement :
    hostAct (.load []) (regs [(5, 9)]) = State.load [] ∧ (State.load []).status = .halted ∧
    (State.load [["a:"]]).status = .running := by decide

/-- The state right after loading one slot. -/
def one (line : TokenLine) : State := State.load [line]

/-- ProgramAndLabelsNeverChange: a store, which writes memory. -/
theorem witness_ProgramAndLabelsNeverChange :
    step (one ["sw", "x0", "3", "x0"]) = .next (step1 (one ["sw", "x0", "3", "x0"])) ∧
    step1 (one ["sw", "x0", "3", "x0"]) ≠ one ["sw", "x0", "3", "x0"] := ⟨rfl, by decide⟩

/-- CountersAndLogOnlyGrowByOneCondition: a step that logs, and one that records a fault. -/
theorem witness_CountersAndLogOnlyGrowByOneCondition :
    step (one ["j", "L"]) = .next (step1 (one ["j", "L"])) ∧ (step1 (one ["j", "L"])).diags.length = 1 ∧
    step (one ["j"]) = .next (step1 (one ["j"])) ∧ (step1 (one ["j"])).fault ≠ (one ["j"]).fault :=
  ⟨rfl, by decide, rfl, by decide⟩

/-- MemoryAccessesCountLoadsAndStores: a Running LW, a Running slot that is none, and a Halted state. -/
theorem witness_MemoryAccessesCountLoadsAndStores :
    step (one ["lw", "x1", "3", "x0"]) = .next (step1 (one ["lw", "x1", "3", "x0"])) ∧
    (one ["lw", "x1", "3", "x0"]).status = .running ∧
    isMemoryAccess (decode (one ["lw", "x1", "3", "x0"]).fetch) = true ∧
    isMemoryAccess (decode (one ["lw:"]).fetch) = false ∧ State.reset.status = .halted :=
  ⟨rfl, by decide, by decide, by decide, by decide⟩

/-- ProgramCounterChangesExactlySo: a state for each way, a jump to pc = N, and a state that is not Running. -/
theorem witness_ProgramCounterChangesExactlySo :
    (step1 (one ["a:"])).pc = 1 ∧ (step1 (one ["nop"])).pc = 1 ∧ (step1 (one ["j"])).pc = 0 ∧
    (step1 (one ["li", "x1", "5"])).pc = 1 ∧ (step1 (one ["sw", "x1", "0", "x0"])).pc = 1 ∧
    (step1 (one ["beq", "x0", "x1", "9"])).pc = 9 ∧
    (step1 { one ["beq", "x0", "x1", "9"] with x := (regs [(1, 7)]).x }).pc = 1 ∧
    (step1 (one ["j", "L"])).pc = 0 ∧ (step1 (one ["j", "1"])).status = .halted ∧
    step State.reset = .next State.reset ∧ State.reset.status ≠ .running :=
  ⟨by decide, by decide, by decide, by decide, by decide, by decide, by decide, by decide, by decide, rfl,
    by decide⟩

/-- CountersCountTheSlotsOfARun: a run of three steps over a label, an Unknown Instruction and an LW. -/
theorem witness_CountersCountTheSlotsOfARun :
    (∃ t, Host.Core.run Sys2Proof.core 3 (State.load [["a:"], ["nop"], ["lw", "x1", "0", "x0"]]) = .next t) ∧
    slotsStepped 3 (State.load [["a:"], ["nop"], ["lw", "x1", "0", "x0"]]) =
      [.labelDef "a", .unknown "nop", .instr (.lw 1 0 0)] :=
  ⟨⟨_, rfl⟩, by decide⟩

/-- MalformedOperandIsPreciseAndFinal: a step that records a fault. -/
theorem witness_MalformedOperandIsPreciseAndFinal :
    step (State.load [["add", "x1"]]) = .next (step1 (State.load [["add", "x1"]])) ∧
    (step1 (State.load [["add", "x1"]])).fault ≠ (State.load [["add", "x1"]]).fault :=
  ⟨rfl, by decide⟩

/-- LabelTableBindsLastDefinition: a name with two definitions, and one with none. -/
theorem witness_LabelTableBindsLastDefinition :
    (buildLabels [["a:"], ["a:"], ["A:"]]).index? "a" = some 1 ∧
    (buildLabels [["a:"], ["a:"], ["A:"]]).index? "b" = none := by decide

/-- RedirectResolvesItsTarget: the three instructions, and the three clauses. -/
theorem witness_RedirectResolvesItsTarget :
    Redirects State.reset (.j "0") "0" ∧ Redirects State.reset (.jal 31 "L") "L" ∧
    Redirects State.reset (.beq 0 31 "L") "L" ∧ isNumeral "0" = true ∧ isNumeral "L" = false ∧
    LabelTable.index? [("L", 0)] "L" = some 0 ∧ State.reset.labels.index? "L" = none :=
  ⟨.inl rfl, .inr (.inl ⟨31, rfl⟩), .inr (.inr ⟨0, 31, rfl, by decide⟩), by decide, by decide, by decide,
    by decide⟩

/-- JumpLandsOnDefinitionAndSkipsIt: the label at slot 0 of a program of two slots. -/
theorem witness_JumpLandsOnDefinitionAndSkipsIt :
    (State.load [["a:"], ["j", "a"]]).fault = none ∧
    (State.load [["a:"], ["j", "a"]]).labels = buildLabels (State.load [["a:"], ["j", "a"]]).prog ∧
    isNumeral "a" = false ∧ (State.load [["a:"], ["j", "a"]]).prog[0]? = some ["a:"] ∧
    decode ["a:"] = .labelDef "a" ∧
    ∀ (k : Nat) (l : TokenLine), 0 < k → (State.load [["a:"], ["j", "a"]]).prog[k]? = some l →
      decode l ≠ .labelDef "a" := by
  refine ⟨by decide, by decide, by decide, by decide, by decide, fun k l hk hl => ?_⟩
  rcases k with _ | _ | k
  · omega
  · obtain rfl : ["j", "a"] = l := by simpa [State.load] using hl
    decide
  · simp [State.load] at hl

/-- UndefinedJumpRepeatsForever: the program whose only slot is `j missing`. -/
theorem witness_UndefinedJumpRepeatsForever :
    (State.load [["j", "missing"]]).fault = none ∧ (State.load [["j", "missing"]]).prog[0]? = some ["j", "missing"] ∧
    decode ["j", "missing"] = .instr (.j "missing") ∧ isNumeral "missing" = false ∧
    (State.load [["j", "missing"]]).labels.index? "missing" = none := by decide

/-- SnapshotListsPopulatedInOrder: a canonical memory with a negative address and a stored 0. -/
theorem witness_SnapshotListsPopulatedInOrder :
    ({ State.reset with mem := [(-3, 2), (0, 0), (5, 1)] } : State).mem.wf := by decide

/-- CanonicalMemoriesWithSameContentsAreEqual: two such memories, written in different orders. -/
theorem witness_CanonicalMemoriesWithSameContentsAreEqual :
    Memory.wf (Memory.insert [(5, 1)] (-3) 0) ∧ Memory.wf (Memory.insert [(-3, 0)] 5 1) ∧
    ∀ a, (Memory.insert [(5, 1)] (-3) 0).lookup a = (Memory.insert [(-3, 0)] 5 1).lookup a :=
  ⟨by decide, by decide, fun _ => rfl⟩

/-- ProgramsCannotSeeCountersLogOrPopulatedSet: two states that differ in a counter, the log and a stored 0. -/
theorem witness_ProgramsCannotSeeCountersLogOrPopulatedSet :
    SameToPrograms (State.load [["lw", "x1", "3", "x0"]])
      ((((State.load [["lw", "x1", "3", "x0"]]).memWrite 3 0).countCycle).report .labelNotFound 0 "L") ∧
    step (State.load [["lw", "x1", "3", "x0"]]) = .next (step1 (State.load [["lw", "x1", "3", "x0"]])) := by
  refine ⟨⟨rfl, rfl, rfl, rfl, fun _ => rfl, fun a => ?_⟩, rfl⟩
  simp only [State.memRead_report, State.memRead_countCycle, State.memRead_memWrite]
  split <;> rfl

end Sys2Proof.Tests
end

section
/-! The register file and the program counter (`10_state.md` R23, R28): what a register write followed by the
default advance leaves behind, where an advance and a redirect put the pc, and the two statements about them. -/

namespace Sys2Proof.Machine

open Sys2Proof.Claims

/-! ### Registers (R23) -/

/-- Reading a word as signed and wrapping it again loses nothing (R9). -/
@[simp] theorem wrap_sval (v : Word) : wrap (sval v) = v := BitVec.ofInt_toInt

/-- The register a write names holds the value written, whichever register it is. -/
theorem OnlyRegister.readReg_self {s t : State} {rd : RegIdx} {v : Word} (h : OnlyRegister s t rd v) :
    t.readReg rd = v := (h rd).trans (if_pos rfl)

/-- ADD, SUB, ADDI and LI are all of this form: one register write, then the default advance. -/
theorem State.writeReg_advance_aluEffect (s : State) (rd : RegIdx) (v : Word) :
    ∃ t, (s.writeReg rd v).advance = .next t ∧ AluEffect s t rd v :=
  ⟨_, rfl, ⟨rfl, rfl, rfl, rfl, rfl⟩, rfl, fun r => s.readReg_writeReg rd r v, fun _ => rfl, rfl, rfl⟩

/-- Settles O33: LI and ADDI each write one register and no register is special, so what LI wrote is what ADDI reads;
adding 0 to it and wrapping gives it back. -/
theorem everyRegisterHoldsWhatIsWritten : Obligations.EveryRegisterHoldsWhatIsWritten := by
  intro r rd imm s
  obtain ⟨t, hli, -, -, hreg, -⟩ := s.writeReg_advance_aluEffect r (wrap imm)
  have ht : t.readReg r = wrap imm := OnlyRegister.readReg_self hreg
  obtain ⟨u, haddi, -, -, hreg', -⟩ := t.writeReg_advance_aluEffect rd (wrap (sval (t.readReg r) + 0))
  have hu : u.readReg rd = wrap (sval (t.readReg r) + 0) := OnlyRegister.readReg_self hreg'
  exact ⟨t, u, hli, ht, haddi, by rw [hu, ht, add_zero, wrap_sval]⟩

/-! ### The program counter (R28) -/

/-- The default advance goes to the following slot (R109). -/
theorem State.advance_pc {s t : State} (h : s.advance = .next t) : t.pc = s.pc + 1 := by
  rw [State.advance_eq] at h
  cases h
  rfl

/-- A redirect goes to the slot its target resolves to (R109 to R112). -/
theorem State.redirect_resolvesTo {s t : State} {tok : Token} (h : s.redirect tok = .next t) :
    ResolvesTo s tok t.pc := by
  obtain ⟨n, ds, e, hcase⟩ := s.redirect_cases tok
  cases e.symm.trans h
  rcases hcase with ⟨hnum, hn, -⟩ | ⟨hnum, hl, -⟩ | ⟨hnum, hl, hn, -⟩
  · simp [ResolvesTo, hnum, hn]
  · simp [ResolvesTo, hnum, hl]
  · simp [ResolvesTo, hnum, hl, hn]

/-- A BEQ redirects when its registers are equal and advances otherwise (R150). -/
theorem execBeq_pc {rs1 rs2 : RegIdx} {tok : Token} {s t : State} (h : execBeq rs1 rs2 tok s = .next t) :
    if s.readReg rs1 = s.readReg rs2 then ResolvesTo s tok t.pc else t.pc = s.pc + 1 := by
  split
  · next heq => exact State.redirect_resolvesTo ((execBeq_taken tok heq).symm.trans h)
  · next hne => exact State.advance_pc ((execBeq_notTaken tok hne).symm.trans h)

/-- Settles O27, by the class of the slot and then by the instruction: each ends in an advance or in a redirect,
from a state whose pc and Label Table are those of `s`. -/
theorem programCounterChangesExactlySo : Obligations.ProgramCounterChangesExactlySo := by
  intro s t h
  refine ⟨fun hstop => ?_, fun hrun => ?_, fun hfault hend => (State.status_halted_iff t).mpr ⟨hfault, hend⟩⟩
  · cases (step_of_notRunning hstop).symm.trans h
    rfl
  · rw [step_of_running hrun] at h
    cases hd : decode s.fetch with
    | labelDef name => rw [hd] at h; cases h; rfl
    | unknown opcode => rw [hd] at h; cases h; rfl
    | malformed opcode r => rw [hd] at h; cases h; rfl
    | instr i =>
      rw [hd] at h
      cases i with
      | add rd rs1 rs2 => exact State.advance_pc (s := s.writeReg rd _) h
      | sub rd rs1 rs2 => exact State.advance_pc (s := s.writeReg rd _) h
      | addi rd rs1 imm => exact State.advance_pc (s := s.writeReg rd _) h
      | li rd imm => exact State.advance_pc (s := s.writeReg rd _) h
      | lw rd offset rs1 => exact State.advance_pc (s := (s.writeReg rd _).countAccess) h
      | sw rs2 offset rs1 => exact State.advance_pc (s := (s.memWrite _ _).countAccess) h
      | beq rs1 rs2 tok => exact execBeq_pc h
      | jal rd tok => exact State.redirect_resolvesTo (s := s.writeReg rd _) h
      | j tok => exact State.redirect_resolvesTo (s := s) h

end Sys2Proof.Machine
end

section
/-! Data memory (`20_memory.md` R53): what one write makes the populated set, 0 included. -/

namespace Sys2Proof.Machine

open Sys2Proof.Claims

/-- Writing populates the address written, whatever the word, and no other (R53). -/
theorem Memory.mem_populated_insert (m : Memory) (a b : Addr) (v : Word) :
    b ∈ (m.insert a v).populated ↔ b = a ∨ b ∈ m.populated := by
  rw [Memory.mem_populated_iff, Memory.mem_populated_iff, Memory.lookup_insert]
  by_cases hba : b = a
  · simp [hba]
  · simp [hba]

/-- Settles O35: a write is an insertion into the memory, whose look-up and populated set are known. -/
theorem writePopulatesExactlyItsAddress : Obligations.WritePopulatesExactlyItsAddress := by
  intro s a b v
  rw [State.memWrite_mem]
  exact ⟨s.mem.lookup_insert a b v, s.mem.mem_populated_insert a b v⟩

end Sys2Proof.Machine
end

section
/-! The classes of a slot by its first token and its operand count (`30_encoding.md` R80, R84): which tokens select
no tag, when a decode is Unknown, and when an operand list is refused for its count alone. -/

namespace Sys2Proof

open Sys2Proof.Claims

/-! ### Unknown Instructions (R84) -/

/-- The decoder's colon test is R71's spelling `name:`. -/
theorem endsWithColon_iff (op : Token) : endsWithColon op = true ↔ ∃ name : Token, op = name ++ ":" := by
  constructor
  · intro h
    obtain ⟨cs, hcs⟩ := List.getLast?_eq_some_iff.mp (eq_of_beq h)
    exact ⟨String.ofList cs, String.toList_inj.mp (by simp [hcs])⟩
  · rintro ⟨name, rfl⟩
    simp [endsWithColon]

/-- MNEMONICS holds the mnemonics of the nine tags and nothing else (R73). -/
theorem mem_mnemonics_iff (tok : Token) : tok ∈ mnemonics ↔ ∃ m : Tag, tok = m.mnemonic := by
  constructor
  · intro h
    have hall : ∀ t ∈ mnemonics, ∃ m ∈ Tag.all, t = m.mnemonic := by decide
    obtain ⟨m, -, hm⟩ := hall tok h
    exact ⟨m, hm⟩
  · rintro ⟨m, rfl⟩
    cases m <;> decide

/-- A token selects no tag exactly when its fold is none of the nine mnemonics. -/
theorem tagOf_eq_none_iff (op : Token) : tagOf op = none ↔ lower op ∉ mnemonics := by
  simp only [Option.eq_none_iff_forall_ne_some, mem_mnemonics_iff, not_exists, ne_eq, tagOf_eq_some_iff]

/-- A recognized mnemonic is never Unknown, whatever its operands gave. -/
theorem recognizedSlot_ne_unknown (op tok : Token) (r : Except MalformedReason Instr) :
    recognizedSlot op r ≠ .unknown tok := by
  cases r <;> simp

/-- When a non-empty slot decodes to an Unknown Instruction, and with which token. -/
theorem decode_cons_eq_unknown_iff (op tok : Token) (ops : List Token) :
    decode (op :: ops) = .unknown tok ↔
      op = tok ∧ ¬ (ops = [] ∧ endsWithColon op = true) ∧ tagOf op = none := by
  cases h : tagOf op with
  | some m => simp [decode_recognized ops h, recognizedSlot_ne_unknown]
  | none =>
    rw [decode_unrecognized ops h]
    split
    · next hlabel => simp [hlabel]
    · next hlabel => simp [hlabel]

/-- Settles O14: the label test and the mnemonic match of the decoder are the two conditions of R84. -/
theorem unknownIsEveryOtherMnemonic : Obligations.UnknownIsEveryOtherMnemonic := by
  refine ⟨fun op ops => ?_, fun line tok h => ?_⟩
  · rw [decode_cons_eq_unknown_iff, endsWithColon_iff, tagOf_eq_none_iff]
    exact and_iff_right rfl
  · cases line with
    | nil => cases decode_nil.symm.trans h
    | cons op ops =>
      obtain ⟨rfl, -⟩ := (decode_cons_eq_unknown_iff op tok ops).mp h
      exact ⟨ops, rfl⟩

/-! ### Operand counts (R80): the check of one operand never answers `OPERAND_COUNT`, so a format does so exactly
when it is given another number of operands -/

@[simp] theorem regOperand_ne_operandCount (tok : Token) : regOperand tok ≠ .error .operandCount := by
  unfold regOperand
  split
  · split <;> simp
  · simp

@[simp] theorem immOperand_ne_operandCount (tok : Token) : immOperand tok ≠ .error .operandCount := by
  unfold immOperand
  split <;> simp

/-- Reading one operand and then the rest fails with the first fault of the two. -/
theorem bind_eq_error {α β : Type} (x : Except MalformedReason α) (f : α → Except MalformedReason β)
    (r : MalformedReason) : (x >>= f) = .error r ↔ x = .error r ∨ ∃ a, x = .ok a ∧ f a = .error r := by
  cases x with
  | error r' => simp [bind, Except.bind]
  | ok a => simp [bind, Except.bind]

theorem formatRRR_operandCount_iff (mk : RegIdx → RegIdx → RegIdx → Instr) (ops : List Token) :
    formatRRR mk ops = .error .operandCount ↔ ops.length ∉ [3] := by
  match ops with
  | [_, _, _] => simp [formatRRR, bind_eq_error, pure, Except.pure]
  | [] | [_] | [_, _] | _ :: _ :: _ :: _ :: _ => simp [formatRRR]

theorem formatRRI_operandCount_iff (mk : RegIdx → RegIdx → Int → Instr) (ops : List Token) :
    formatRRI mk ops = .error .operandCount ↔ ops.length ∉ [3] := by
  match ops with
  | [_, _, _] => simp [formatRRI, bind_eq_error, pure, Except.pure]
  | [] | [_] | [_, _] | _ :: _ :: _ :: _ :: _ => simp [formatRRI]

theorem formatRI_operandCount_iff (mk : RegIdx → Int → Instr) (ops : List Token) :
    formatRI mk ops = .error .operandCount ↔ ops.length ∉ [2] := by
  match ops with
  | [_, _] => simp [formatRI, bind_eq_error, pure, Except.pure]
  | [] | [_] | _ :: _ :: _ :: _ => simp [formatRI]

theorem formatMem_operandCount_iff (mk : RegIdx → Int → RegIdx → Instr) (ops : List Token) :
    formatMem mk ops = .error .operandCount ↔ ops.length ∉ [3] := by
  match ops with
  | [_, _, _] => simp [formatMem, bind_eq_error, pure, Except.pure]
  | [] | [_] | [_, _] | _ :: _ :: _ :: _ :: _ => simp [formatMem]

theorem formatBranch_operandCount_iff (mk : RegIdx → RegIdx → Token → Instr) (ops : List Token) :
    formatBranch mk ops = .error .operandCount ↔ ops.length ∉ [3] := by
  match ops with
  | [_, _, _] => simp [formatBranch, bind_eq_error, pure, Except.pure]
  | [] | [_] | [_, _] | _ :: _ :: _ :: _ :: _ => simp [formatBranch]

/-- The two formats of JAL together accept one operand or two. -/
theorem formatJal_operandCount_iff (mk : RegIdx → Token → Instr) (ops : List Token) :
    formatJal mk ops = .error .operandCount ↔ ops.length ∉ [1, 2] := by
  match ops with
  | [_, _] => simp [formatJal, bind_eq_error, pure, Except.pure]
  | [] | [_] | _ :: _ :: _ :: _ => simp [formatJal]

theorem formatJump_operandCount_iff (mk : Token → Instr) (ops : List Token) :
    formatJump mk ops = .error .operandCount ↔ ops.length ∉ [1] := by
  match ops with
  | [] | [_] | _ :: _ :: _ => simp [formatJump]

/-- The opcode map refuses an operand list for its count exactly outside the mnemonic's ARITY. -/
theorem decodeOperands_operandCount_iff (m : Tag) (ops : List Token) :
    decodeOperands m ops = .error .operandCount ↔ ops.length ∉ arity m := by
  cases m with
  | add => exact formatRRR_operandCount_iff .add ops
  | sub => exact formatRRR_operandCount_iff .sub ops
  | addi => exact formatRRI_operandCount_iff .addi ops
  | li => exact formatRI_operandCount_iff .li ops
  | lw => exact formatMem_operandCount_iff .lw ops
  | sw => exact formatMem_operandCount_iff .sw ops
  | beq => exact formatBranch_operandCount_iff .beq ops
  | jal => exact formatJal_operandCount_iff .jal ops
  | j => exact formatJump_operandCount_iff .j ops

/-- A recognized slot is Malformed with the reason its operands were refused for. -/
theorem recognizedSlot_eq_malformed_iff (op : Token) (x : Except MalformedReason Instr) (r : MalformedReason) :
    recognizedSlot op x = .malformed (some op) r ↔ x = .error r := by
  cases x <;> simp

/-- Settles O15: a recognized slot is Malformed for the reason its format gives, and every format gives
`OPERAND_COUNT` exactly outside the ARITY. -/
theorem operandCountFaultExactlyOutsideArity : Obligations.OperandCountFaultExactlyOutsideArity := by
  intro m op ops hop
  rw [decode_recognized ops ((tagOf_eq_some_iff op m).mpr hop), recognizedSlot_eq_malformed_iff,
    decodeOperands_operandCount_iff]

end Sys2Proof
end

section
/-! The dispatch of one slot (`40_dispatch.md` R100, R110, R116): which slots make a memory access, what the Label
Table Builder binds a name to, and what every redirect does with its target. -/

namespace Sys2Proof.Machine

open Sys2Proof.Claims

/-! ### Memory accesses (R116) -/

/-- The default advance makes no memory access. -/
theorem State.advance_memoryAccesses {s t : State} (h : s.advance = .next t) :
    t.memoryAccesses = s.memoryAccesses := by
  rw [State.advance_eq] at h
  cases h
  rfl

/-- A redirect makes no memory access, whatever its target resolves to. -/
theorem State.redirect_memoryAccesses {s t : State} {tok : Token} (h : s.redirect tok = .next t) :
    t.memoryAccesses = s.memoryAccesses := by
  obtain ⟨n, ds, e, -⟩ := s.redirect_cases tok
  cases e.symm.trans h
  rfl

/-- A BEQ makes no memory access, taken or not. -/
theorem execBeq_memoryAccesses {rs1 rs2 : RegIdx} {tok : Token} {s t : State}
    (h : execBeq rs1 rs2 tok s = .next t) : t.memoryAccesses = s.memoryAccesses := by
  by_cases heq : s.readReg rs1 = s.readReg rs2
  · exact State.redirect_memoryAccesses ((execBeq_taken tok heq).symm.trans h)
  · exact State.advance_memoryAccesses ((execBeq_notTaken tok heq).symm.trans h)

/-- An instruction makes one memory access if it is an LW or an SW and none otherwise: all end in an advance or in a
redirect, and only those two count an access before it. -/
theorem exec_memoryAccesses {i : Instr} {s t : State} (h : exec i s = .next t) :
    t.memoryAccesses = s.memoryAccesses + if isMemoryAccess (.instr i) = true then 1 else 0 := by
  cases i with
  | add rd rs1 rs2 => exact State.advance_memoryAccesses (s := s.writeReg rd _) h
  | sub rd rs1 rs2 => exact State.advance_memoryAccesses (s := s.writeReg rd _) h
  | addi rd rs1 imm => exact State.advance_memoryAccesses (s := s.writeReg rd _) h
  | li rd imm => exact State.advance_memoryAccesses (s := s.writeReg rd _) h
  | lw rd offset rs1 => exact State.advance_memoryAccesses (s := (s.writeReg rd _).countAccess) h
  | sw rs2 offset rs1 => exact State.advance_memoryAccesses (s := (s.memWrite _ _).countAccess) h
  | beq rs1 rs2 tok => exact execBeq_memoryAccesses h
  | jal rd tok => exact State.redirect_memoryAccesses (s := s.writeReg rd _) h
  | j tok => exact State.redirect_memoryAccesses (s := s) h

/-- A slot of any class makes one memory access if it is an LW or an SW and none otherwise. -/
theorem execSlot_memoryAccesses {c : Slot} {s t : State} (h : execSlot c s = .next t) :
    t.memoryAccesses = s.memoryAccesses + if isMemoryAccess c = true then 1 else 0 := by
  cases c with
  | labelDef name => cases h; rfl
  | unknown opcode => cases h; rfl
  | malformed opcode r => cases h; rfl
  | instr i => exact exec_memoryAccesses h

/-- Settles O25: a Running engine executes the slot it fetches, and any other keeps its state. -/
theorem memoryAccessesCountLoadsAndStores : Obligations.MemoryAccessesCountLoadsAndStores := by
  intro s t h
  by_cases hrun : s.status = .running
  · rw [step_of_running hrun] at h
    simpa only [hrun, true_and] using execSlot_memoryAccesses h
  · cases (step_of_notRunning hrun).symm.trans h
    simp [hrun]

/-! ### The Label Table (R100) -/

/-- The built table binds a name to slot `i` exactly when `i` is the last slot that defines it. -/
theorem buildLabels_index?_eq_some_iff (prog : List TokenLine) (name : Token) (i : Nat) :
    (buildLabels prog).index? name = some i ↔ DefinesLast prog name i := by
  have bound {k : Nat} (hk : DefinesLast prog name k) : (buildLabels prog).index? name = some k :=
    (scanLabels_index?_defined prog 0 k [] name hk).trans (by rw [Nat.zero_add])
  refine ⟨fun h => ?_, bound⟩
  by_cases hdef : ∃ line ∈ prog, decode line = .labelDef name
  · obtain ⟨line, hm, hd⟩ := hdef
    obtain ⟨k, hk⟩ := exists_definesLast hm hd
    cases (bound hk).symm.trans h
    exact hk
  · push Not at hdef
    cases (scanLabels_index?_undefined prog 0 [] name hdef).symm.trans h

/-- The built table has no binding of a name exactly when no slot defines it. -/
theorem buildLabels_index?_eq_none_iff (prog : List TokenLine) (name : Token) :
    (buildLabels prog).index? name = none ↔ ∀ line ∈ prog, decode line ≠ .labelDef name := by
  refine ⟨fun h line hm hd => ?_, scanLabels_index?_undefined prog 0 [] name⟩
  obtain ⟨k, hk⟩ := exists_definesLast hm hd
  cases h.symm.trans ((buildLabels_index?_eq_some_iff prog name k).mpr hk)

/-- Settles O29: the builder's pass over the program starts from the empty table, so a binding it holds is the last
definition's. -/
theorem labelTableBindsLastDefinition : Obligations.LabelTableBindsLastDefinition :=
  ⟨buildLabels_index?_eq_some_iff, buildLabels_index?_eq_none_iff⟩

/-! ### Redirects (R110, R163) -/

/-- J, JAL and a taken BEQ are one redirect, from a state that differs from `s` in its registers at most; before a
JAL's redirect its link register holds the return address (R151). -/
theorem exec_of_redirects {s : State} {i : Instr} {tok : Token} (h : Redirects s i tok) :
    ∃ regs : Vector Word 32, exec i s = ({ s with x := regs } : State).redirect tok ∧
      ∀ rd, i = .jal rd tok → ({ s with x := regs } : State).readReg rd = returnAddress s.pc := by
  rcases h with rfl | ⟨rd, rfl⟩ | ⟨rs1, rs2, rfl, heq⟩
  · exact ⟨s.x, rfl, nofun⟩
  · refine ⟨s.x.set rd (returnAddress s.pc), rfl, fun rd' hjal => ?_⟩
    cases hjal
    exact (s.readReg_writeReg rd rd _).trans (if_pos rfl)
  · exact ⟨s.x, execBeq_taken tok heq, nofun⟩

/-- Settles O30, by the three cases of the one redirect that the instruction ends in. -/
theorem redirectResolvesItsTarget : Obligations.RedirectResolvesItsTarget := by
  intro s i tok h
  obtain ⟨regs, hexec, hlink⟩ := exec_of_redirects h
  obtain ⟨n, ds, hnext, hcase⟩ := State.redirect_cases { s with x := regs } tok
  refine ⟨_, hexec.trans hnext, ?_⟩
  rcases hcase with ⟨hnum, rfl, rfl⟩ | ⟨hnum, hl, rfl⟩ | ⟨hnum, hl, rfl, rfl⟩
  · simp [hnum]
  · simp [hnum, hl]
  · exact ⟨by simp [hnum], by simp [hl], fun _ _ => ⟨rfl, rfl, rfl, rfl, hlink⟩⟩

end Sys2Proof.Machine
end

section
/-! The ALU instructions (`41_alu.md` R130 to R134) and R9's readings of a word: which operands each mnemonic decodes
and which it refuses, and `wrap` as reduction modulo 2^32. -/

namespace Sys2Proof

open Sys2Proof.Claims Sys2Proof.Machine

/-! ### Accepted operands (R78, R81) -/

/-- The decoder reads a register operand exactly as R74 spells it. -/
theorem regOperand_ok_iff_registerToken (tok : Token) (r : RegIdx) :
    regOperand tok = .ok r ↔ RegisterToken tok r :=
  (regOperand_ok_iff tok r).trans (registerToken_iff tok r).symm

/-- The decoder reads an immediate operand exactly as R75 spells it. -/
theorem immOperand_ok_iff_immediateToken (tok : Token) (n : Int) :
    immOperand tok = .ok n ↔ ImmediateToken tok n :=
  (immOperand_ok_iff tok n).trans (immediateToken_iff tok n).symm

theorem fits_of_regOperand_ok {tok : Token} {r : RegIdx} (h : regOperand tok = .ok r) : Fits .reg tok :=
  ⟨r, (regOperand_ok_iff_registerToken tok r).mp h⟩

theorem fits_of_immOperand_ok {tok : Token} {n : Int} (h : immOperand tok = .ok n) : Fits .imm tok :=
  ⟨n, (immOperand_ok_iff_immediateToken tok n).mp h⟩

/-- A slot with a recognized mnemonic decodes to what its operands gave. -/
theorem decode_of_decodeOperands_ok {op : Token} {m : Tag} {ops : List Token} {i : Instr}
    (hop : lower op = m.mnemonic) (h : decodeOperands m ops = .ok i) : decode (op :: ops) = .instr i := by
  rw [decode_recognized ops ((tagOf_eq_some_iff op m).mpr hop), h, recognizedSlot_ok]

/-- Format RRR accepts three register tokens. -/
theorem formatRRR_registerTokens (mk : RegIdx → RegIdx → RegIdx → Instr) {t1 t2 t3 : Token} {a b c : RegIdx}
    (h1 : RegisterToken t1 a) (h2 : RegisterToken t2 b) (h3 : RegisterToken t3 c) :
    formatRRR mk [t1, t2, t3] = .ok (mk a b c) :=
  (formatRRR_ok_iff mk _ _).mpr ⟨t1, t2, t3, a, b, c, rfl, (regOperand_ok_iff_registerToken t1 a).mpr h1,
    (regOperand_ok_iff_registerToken t2 b).mpr h2, (regOperand_ok_iff_registerToken t3 c).mpr h3, rfl⟩

/-- Format RRI accepts two register tokens and an immediate. -/
theorem formatRRI_tokens (mk : RegIdx → RegIdx → Int → Instr) {t1 t2 t3 : Token} {a b : RegIdx} {n : Int}
    (h1 : RegisterToken t1 a) (h2 : RegisterToken t2 b) (h3 : ImmediateToken t3 n) :
    formatRRI mk [t1, t2, t3] = .ok (mk a b n) :=
  (formatRRI_ok_iff mk _ _).mpr ⟨t1, t2, t3, a, b, n, rfl, (regOperand_ok_iff_registerToken t1 a).mpr h1,
    (regOperand_ok_iff_registerToken t2 b).mpr h2, (immOperand_ok_iff_immediateToken t3 n).mpr h3, rfl⟩

/-- Format RI accepts a register token and an immediate. -/
theorem formatRI_tokens (mk : RegIdx → Int → Instr) {t1 t2 : Token} {a : RegIdx} {n : Int}
    (h1 : RegisterToken t1 a) (h2 : ImmediateToken t2 n) : formatRI mk [t1, t2] = .ok (mk a n) :=
  (formatRI_ok_iff mk _ _).mpr ⟨t1, t2, a, n, rfl, (regOperand_ok_iff_registerToken t1 a).mpr h1,
    (immOperand_ok_iff_immediateToken t2 n).mpr h2, rfl⟩

/-! ### Refused operands: an operand list that is read fits a format of its mnemonic, so one that fits none is a
Malformed Operand (R81) -/

theorem fits_of_formatRRR_ok {mk : RegIdx → RegIdx → RegIdx → Instr} {ops : List Token} {i : Instr}
    (h : formatRRR mk ops = .ok i) : List.Forall₂ Fits [.reg, .reg, .reg] ops := by
  obtain ⟨t1, t2, t3, a, b, c, rfl, h1, h2, h3, -⟩ := (formatRRR_ok_iff mk ops i).mp h
  simp [fits_of_regOperand_ok h1, fits_of_regOperand_ok h2, fits_of_regOperand_ok h3]

theorem fits_of_formatRRI_ok {mk : RegIdx → RegIdx → Int → Instr} {ops : List Token} {i : Instr}
    (h : formatRRI mk ops = .ok i) : List.Forall₂ Fits [.reg, .reg, .imm] ops := by
  obtain ⟨t1, t2, t3, a, b, n, rfl, h1, h2, h3, -⟩ := (formatRRI_ok_iff mk ops i).mp h
  simp [fits_of_regOperand_ok h1, fits_of_regOperand_ok h2, fits_of_immOperand_ok h3]

theorem fits_of_formatRI_ok {mk : RegIdx → Int → Instr} {ops : List Token} {i : Instr}
    (h : formatRI mk ops = .ok i) : List.Forall₂ Fits [.reg, .imm] ops := by
  obtain ⟨t1, t2, a, n, rfl, h1, h2, -⟩ := (formatRI_ok_iff mk ops i).mp h
  simp [fits_of_regOperand_ok h1, fits_of_immOperand_ok h2]

theorem fits_of_formatMem_ok {mk : RegIdx → Int → RegIdx → Instr} {ops : List Token} {i : Instr}
    (h : formatMem mk ops = .ok i) : List.Forall₂ Fits [.reg, .imm, .reg] ops := by
  obtain ⟨t1, t2, t3, a, n, c, rfl, h1, h2, h3, -⟩ := (formatMem_ok_iff mk ops i).mp h
  simp [fits_of_regOperand_ok h1, fits_of_immOperand_ok h2, fits_of_regOperand_ok h3]

theorem fits_of_formatBranch_ok {mk : RegIdx → RegIdx → Token → Instr} {ops : List Token} {i : Instr}
    (h : formatBranch mk ops = .ok i) : List.Forall₂ Fits [.reg, .reg, .label] ops := by
  obtain ⟨t1, t2, t3, a, b, rfl, h1, h2, -⟩ := (formatBranch_ok_iff mk ops i).mp h
  simp [fits_of_regOperand_ok h1, fits_of_regOperand_ok h2, fits_label]

/-- The operand count decides which of JAL's two formats was read. -/
theorem fits_of_formatJal_ok {mk : RegIdx → Token → Instr} {ops : List Token} {i : Instr}
    (h : formatJal mk ops = .ok i) :
    List.Forall₂ Fits [.label] ops ∨ List.Forall₂ Fits [.reg, .label] ops := by
  rcases (formatJal_ok_iff mk ops i).mp h with ⟨t1, rfl, -⟩ | ⟨t1, t2, a, rfl, h1, -⟩
  · exact .inl (by simp [fits_label])
  · exact .inr (by simp [fits_of_regOperand_ok h1, fits_label])

theorem fits_of_formatJump_ok {mk : Token → Instr} {ops : List Token} {i : Instr}
    (h : formatJump mk ops = .ok i) : List.Forall₂ Fits [.label] ops := by
  obtain ⟨t1, rfl, -⟩ := (formatJump_ok_iff mk ops i).mp h
  simp [fits_label]

/-- Operands that are read fit one of their mnemonic's formats. -/
theorem fits_of_decodeOperands_ok {m : Tag} {ops : List Token} {i : Instr}
    (h : decodeOperands m ops = .ok i) : ∃ cs ∈ m.formats, List.Forall₂ Fits cs ops := by
  cases m with
  | add => exact ⟨_, .head _, fits_of_formatRRR_ok h⟩
  | sub => exact ⟨_, .head _, fits_of_formatRRR_ok h⟩
  | addi => exact ⟨_, .head _, fits_of_formatRRI_ok h⟩
  | li => exact ⟨_, .head _, fits_of_formatRI_ok h⟩
  | lw => exact ⟨_, .head _, fits_of_formatMem_ok h⟩
  | sw => exact ⟨_, .head _, fits_of_formatMem_ok h⟩
  | beq => exact ⟨_, .head _, fits_of_formatBranch_ok h⟩
  | jal =>
    rcases fits_of_formatJal_ok h with h1 | h2
    · exact ⟨_, .head _, h1⟩
    · exact ⟨_, .tail _ (.head _), h2⟩
  | j => exact ⟨_, .head _, fits_of_formatJump_ok h⟩

/-- Every mnemonic refuses all operands but those of its formats. -/
theorem rejectsAllBut_formats (m : Tag) : RejectsAllBut m.mnemonic m.formats := by
  intro op ops hop hnone
  rw [decode_recognized ops ((tagOf_eq_some_iff op m).mpr hop)]
  cases hd : decodeOperands m ops with
  | ok i =>
    obtain ⟨cs, hcs, hfits⟩ := fits_of_decodeOperands_ok hd
    exact absurd hfits (hnone cs hcs)
  | error r => exact ⟨r, recognizedSlot_error op r⟩

/-! ### ADD, SUB, ADDI and LI: each decodes by its format, refuses the rest, and is one register write followed by the
default advance -/

/-- Settles O1: format RRR, and one register write of the wrapped sum. -/
theorem addWritesWrappedSum : Obligations.AddWritesWrappedSum := by
  refine ⟨fun op t1 t2 t3 rd rs1 rs2 hop h1 h2 h3 => ?_, rejectsAllBut_formats .add, fun rd rs1 rs2 s => ?_⟩
  · exact decode_of_decodeOperands_ok (m := .add) hop (formatRRR_registerTokens .add h1 h2 h3)
  · exact s.writeReg_advance_aluEffect rd _

/-- Settles O2: format RRR, and one register write of the wrapped difference. -/
theorem subWritesWrappedDifference : Obligations.SubWritesWrappedDifference := by
  refine ⟨fun op t1 t2 t3 rd rs1 rs2 hop h1 h2 h3 => ?_, rejectsAllBut_formats .sub, fun rd rs1 rs2 s => ?_⟩
  · exact decode_of_decodeOperands_ok (m := .sub) hop (formatRRR_registerTokens .sub h1 h2 h3)
  · exact s.writeReg_advance_aluEffect rd _

/-- Settles O3: format RRI, whose immediate is read at any size, and one register write of the wrapped sum. -/
theorem addiAddsUnboundedImmediate : Obligations.AddiAddsUnboundedImmediate := by
  refine ⟨fun op t1 t2 t3 rd rs1 imm hop h1 h2 h3 => ?_, rejectsAllBut_formats .addi, fun rd rs1 imm s => ?_⟩
  · exact decode_of_decodeOperands_ok (m := .addi) hop (formatRRI_tokens .addi h1 h2 h3)
  · exact s.writeReg_advance_aluEffect rd _

/-- Settles O4: format RI, whose immediate is read at any size, and one register write of the wrapped immediate. -/
theorem liLoadsWrappedImmediate : Obligations.LiLoadsWrappedImmediate := by
  refine ⟨fun op t1 t2 rd imm hop h1 h2 => ?_, rejectsAllBut_formats .li, fun rd imm s => ?_⟩
  · exact decode_of_decodeOperands_ok (m := .li) hop (formatRI_tokens .li h1 h2)
  · exact s.writeReg_advance_aluEffect rd _

end Sys2Proof

namespace Sys2Proof.Machine

/-! ### Words as residues modulo 2^32 (R9, R134) -/

theorem uval_wrap (n : Int) : uval (wrap n) = n % 2 ^ 32 := by
  rw [uval, wrap, BitVec.toNat_ofInt]
  omega

theorem sval_wrap (n : Int) : sval (wrap n) = n.bmod (2 ^ 32) := BitVec.toInt_ofInt n

/-- A word wrapped from an integer has that integer's residue, read as signed. -/
theorem sval_wrap_modEq (n : Int) : sval (wrap n) ≡ n [ZMOD 2 ^ 32] := by
  rw [sval_wrap]
  exact Int.bmod_emod

/-- The signed range of a word (R9). -/
theorem sval_range (v : Word) : -(2 ^ 31) ≤ sval v ∧ sval v < 2 ^ 31 := ⟨v.le_toInt, v.toInt_lt⟩

/-- The two readings of a word have the same residue. -/
theorem sval_modEq_uval (v : Word) : sval v ≡ uval v [ZMOD 2 ^ 32] := by
  have huval : uval v = sval v % 2 ^ 32 := by rw [← uval_wrap, wrap_sval]
  rw [huval]
  exact (Int.mod_modEq _ _).symm

/-- `wrap` depends on the residue alone. -/
theorem wrap_congr {m n : Int} (h : m ≡ n [ZMOD 2 ^ 32]) : wrap m = wrap n := by
  have huval : uval (wrap m) = uval (wrap n) := by rw [uval_wrap, uval_wrap, h]
  exact BitVec.eq_of_toNat_eq (Int.ofNat_inj.mp huval)

/-- Settles O34: the readings of a word are congruent modulo 2^32, and `wrap` depends on the residue alone. -/
theorem wrapIsReductionModuloWordSize : Obligations.WrapIsReductionModuloWordSize := by
  refine ⟨fun n => ⟨uval_wrap n, sval_wrap_modEq n, sval_range (wrap n)⟩, fun v w => ⟨wrap_sval v, ?_, ?_⟩⟩
  · exact wrap_congr ((sval_modEq_uval v).add (sval_modEq_uval w))
  · exact wrap_congr ((sval_modEq_uval v).sub (sval_modEq_uval w))

end Sys2Proof.Machine
end

section
/-! LW and SW (`42_load_store.md` R140 to R142): the operands both decode, the end both share, which counts one access
and advances, and what each does before it. -/

namespace Sys2Proof

open Sys2Proof.Claims Sys2Proof.Machine

/-! ### Accepted operands (R78) -/

/-- Formats LOAD and STORE accept a register token, an immediate and a register token. -/
theorem formatMem_tokens (mk : RegIdx → Int → RegIdx → Instr) {t1 t2 t3 : Token} {a c : RegIdx} {n : Int}
    (h1 : RegisterToken t1 a) (h2 : ImmediateToken t2 n) (h3 : RegisterToken t3 c) :
    formatMem mk [t1, t2, t3] = .ok (mk a n c) :=
  (formatMem_ok_iff mk _ _).mpr ⟨t1, t2, t3, a, n, c, rfl, (regOperand_ok_iff_registerToken t1 a).mpr h1,
    (immOperand_ok_iff_immediateToken t2 n).mpr h2, (regOperand_ok_iff_registerToken t3 c).mpr h3, rfl⟩

end Sys2Proof

namespace Sys2Proof.Machine

open Sys2Proof.Claims

/-! ### The end of a load and of a store (R104, R116) -/

/-- LW and SW both end so: one access is counted and the default advance is taken, and every register and every
address keeps what it holds by then. -/
theorem State.countAccess_advance_effect (s : State) :
    ∃ t, s.countAccess.advance = .next t ∧ Retired s t ∧ t.pc = s.pc + 1 ∧ MemoryUnchanged s t ∧
      (∀ r, t.readReg r = s.readReg r) ∧ t.diags = s.diags ∧ t.memoryAccesses = s.memoryAccesses + 1 :=
  ⟨_, rfl, ⟨rfl, rfl, rfl, rfl, rfl⟩, rfl, fun _ => rfl, fun _ => rfl, rfl, rfl⟩

/-- LW's result: the word at the exact sum, or 0 where that address is unpopulated (R51, R52). -/
theorem State.memRead_effectiveAddr (s : State) (rs1 : RegIdx) (offset : Int) :
    s.memRead (s.effectiveAddr rs1 offset) = (s.mem.lookup (sval (s.readReg rs1) + offset)).getD 0 := rfl

/-- A load writes one register, with the word at the address its old base register gives (R140). -/
theorem execLw_effect (rd rs1 : RegIdx) (offset : Int) (s : State) :
    ∃ t, execLw rd offset rs1 s = .next t ∧ Retired s t ∧ t.pc = s.pc + 1 ∧ MemoryUnchanged s t ∧
      t.diags = s.diags ∧ t.memoryAccesses = s.memoryAccesses + 1 ∧
      OnlyRegister s t rd (s.memRead (s.effectiveAddr rs1 offset)) := by
  obtain ⟨t, hnext, hret, hpc, hmem, hreg, hdiags, hacc⟩ :=
    (s.writeReg rd (s.memRead (s.effectiveAddr rs1 offset))).countAccess_advance_effect
  exact ⟨t, hnext, hret, hpc, hmem, hdiags, hacc, fun r => (hreg r).trans (s.readReg_writeReg rd r _)⟩

/-- A store changes one address, the exact sum (R141, R142). -/
theorem execSw_effect (rs2 rs1 : RegIdx) (offset : Int) (s : State) :
    ∃ t, execSw rs2 offset rs1 s = .next t ∧
      (∀ a, t.mem.lookup a =
        if a = s.effectiveAddr rs1 offset then some (s.readReg rs2) else s.mem.lookup a) ∧
      Retired s t ∧ t.pc = s.pc + 1 ∧ (∀ r, t.readReg r = s.readReg r) ∧ t.diags = s.diags ∧
      t.memoryAccesses = s.memoryAccesses + 1 := by
  obtain ⟨t, hnext, hret, hpc, hmem, hreg, hdiags, hacc⟩ :=
    (s.memWrite (s.effectiveAddr rs1 offset) (s.readReg rs2)).countAccess_advance_effect
  exact ⟨t, hnext, fun a => (hmem a).trans (s.mem.lookup_insert _ a _), hret, hpc, hreg, hdiags, hacc⟩

/-- Settles O5: format LOAD, and one register write before the end that loads and stores share. -/
theorem lwLoadsWordOrZero : Obligations.LwLoadsWordOrZero := by
  refine ⟨fun op t1 t2 t3 rd rs1 offset hop h1 h2 h3 => ?_, rejectsAllBut_formats .lw,
    fun rd rs1 offset s => ?_⟩
  · exact decode_of_decodeOperands_ok (m := .lw) hop (formatMem_tokens .lw h1 h2 h3)
  · rw [← s.memRead_effectiveAddr rs1 offset]
    exact execLw_effect rd rs1 offset s

/-- Settles O6: format STORE, and one memory write before the end that loads and stores share; the address is the
exact sum by definition. -/
theorem swStoresWordAtExactAddress : Obligations.SwStoresWordAtExactAddress := by
  refine ⟨fun op t1 t2 t3 rs2 rs1 offset hop h1 h2 h3 => ?_, rejectsAllBut_formats .sw,
    fun rs2 rs1 offset s => ?_⟩
  · exact decode_of_decodeOperands_ok (m := .sw) hop (formatMem_tokens .sw h1 h2 h3)
  · obtain ⟨t, hnext, heffect⟩ := execSw_effect rs2 rs1 offset s
    exact ⟨t, hnext, rfl, heffect⟩

end Sys2Proof.Machine
end

section
/-! BEQ, JAL and J (`43_control.md` R150 to R154): the operands each decodes, the whole effect of a redirect and of
an advance, and which of the two each instruction ends in. -/

namespace Sys2Proof

open Sys2Proof.Claims

/-! ### Accepted operands (R76, R78): the label is taken as written -/

/-- Format BRANCH accepts two register tokens and any token. -/
theorem formatBranch_registerTokens (mk : RegIdx → RegIdx → Token → Instr) {t1 t2 : Token} (label : Token)
    {a b : RegIdx} (h1 : RegisterToken t1 a) (h2 : RegisterToken t2 b) :
    formatBranch mk [t1, t2, label] = .ok (mk a b label) :=
  (formatBranch_ok_iff mk _ _).mpr ⟨t1, t2, label, a, b, rfl, (regOperand_ok_iff_registerToken t1 a).mpr h1,
    (regOperand_ok_iff_registerToken t2 b).mpr h2, rfl⟩

/-- Format JAL-1 accepts any token, with the link register in place of the omitted operand (R26). -/
theorem formatJal_label (mk : RegIdx → Token → Instr) (label : Token) :
    formatJal mk [label] = .ok (mk Config.linkRegister label) :=
  (formatJal_ok_iff mk _ _).mpr (.inl ⟨label, rfl, rfl⟩)

/-- Format JAL-2 accepts a register token and any token. -/
theorem formatJal_registerToken (mk : RegIdx → Token → Instr) {t1 : Token} (label : Token) {a : RegIdx}
    (h1 : RegisterToken t1 a) : formatJal mk [t1, label] = .ok (mk a label) :=
  (formatJal_ok_iff mk _ _).mpr (.inr ⟨t1, label, a, rfl, (regOperand_ok_iff_registerToken t1 a).mpr h1, rfl⟩)

/-- Format JUMP accepts any token. -/
theorem formatJump_label (mk : Token → Instr) (label : Token) : formatJump mk [label] = .ok (mk label) :=
  (formatJump_ok_iff mk _ _).mpr ⟨label, rfl, rfl⟩

end Sys2Proof

namespace Sys2Proof.Machine

open Sys2Proof.Claims

/-! ### The two ends of a control transfer (R109) -/

/-- A redirect logs an undefined label and nothing else (R110, R163). -/
theorem State.redirect_logsResolution {s t : State} {tok : Token} (h : s.redirect tok = .next t) :
    LogsResolution s t tok := by
  obtain ⟨n, ds, e, hcase⟩ := s.redirect_cases tok
  cases e.symm.trans h
  rcases hcase with ⟨hnum, -, rfl⟩ | ⟨-, hl, rfl⟩ | ⟨hnum, hl, -, rfl⟩
  · simp [LogsResolution, hnum]
  · simp [LogsResolution, hl]
  · simp [LogsResolution, hnum, hl]

/-- A redirect completes in every state, and changes the pc, the log and the two counters only. -/
theorem State.redirect_redirectEffect (s : State) (tok : Token) :
    ∃ t, s.redirect tok = .next t ∧ ControlFrame s t ∧ RedirectEffect s t tok ∧
      ∀ r, t.readReg r = s.readReg r := by
  obtain ⟨n, ds, hnext, -⟩ := s.redirect_cases tok
  exact ⟨_, hnext, ⟨⟨rfl, rfl, rfl, rfl, rfl⟩, fun _ => rfl, rfl⟩,
    ⟨State.redirect_resolvesTo hnext, State.redirect_logsResolution hnext⟩, fun _ => rfl⟩

/-- The default advance of a branch not taken changes the pc and the two counters only. -/
theorem State.advance_controlFrame (s : State) :
    ∃ t, s.advance = .next t ∧ ControlFrame s t ∧ (∀ r, t.readReg r = s.readReg r) ∧
      t.pc = s.pc + 1 ∧ t.diags = s.diags :=
  ⟨_, s.advance_eq, ⟨⟨rfl, rfl, rfl, rfl, rfl⟩, fun _ => rfl, rfl⟩, fun _ => rfl, rfl, rfl⟩

/-! ### The three instructions -/

/-- The comparison decides which of the two ends a BEQ takes (R150). -/
theorem execBeq_effect (rs1 rs2 : RegIdx) (label : Token) (s : State) :
    ∃ t, execBeq rs1 rs2 label s = .next t ∧ ControlFrame s t ∧ (∀ r, t.readReg r = s.readReg r) ∧
      (s.readReg rs1 = s.readReg rs2 → RedirectEffect s t label) ∧
      (s.readReg rs1 ≠ s.readReg rs2 → t.pc = s.pc + 1 ∧ t.diags = s.diags) := by
  by_cases heq : s.readReg rs1 = s.readReg rs2
  · obtain ⟨t, hnext, hframe, heffect, hreg⟩ := s.redirect_redirectEffect label
    exact ⟨t, (execBeq_taken label heq).trans hnext, hframe, hreg, fun _ => heffect, fun hne => absurd heq hne⟩
  · obtain ⟨t, hnext, hframe, hreg, hadvance⟩ := s.advance_controlFrame
    exact ⟨t, (execBeq_notTaken label heq).trans hnext, hframe, hreg, fun h => absurd h heq, fun _ => hadvance⟩

/-- A JAL is a redirect after the write of its link register, which is in neither the frame nor the resolution
(R151). -/
theorem execJal_effect (rd : RegIdx) (label : Token) (s : State) :
    ∃ t, execJal rd label s = .next t ∧ ControlFrame s t ∧ RedirectEffect s t label ∧
      OnlyRegister s t rd (returnAddress s.pc) := by
  obtain ⟨t, hnext, hframe, heffect, hreg⟩ :=
    (s.writeReg rd (returnAddress s.pc)).redirect_redirectEffect label
  exact ⟨t, hnext, hframe, heffect, fun r => (hreg r).trans (s.readReg_writeReg rd r _)⟩

/-- Settles O7: format BRANCH, and one of the two ends by the comparison. -/
theorem beqRedirectsExactlyWhenEqual : Obligations.BeqRedirectsExactlyWhenEqual := by
  refine ⟨fun op t1 t2 label rs1 rs2 hop h1 h2 => ?_, rejectsAllBut_formats .beq, execBeq_effect⟩
  exact decode_of_decodeOperands_ok (m := .beq) hop (formatBranch_registerTokens .beq label h1 h2)

/-- Settles O8: both JAL formats, and a redirect after the one register write. -/
theorem jalLinksFollowingSlotAndRedirects : Obligations.JalLinksFollowingSlotAndRedirects := by
  refine ⟨fun op label hop => ?_, fun op t1 label rd hop h1 => ?_, rejectsAllBut_formats .jal, execJal_effect⟩
  · exact decode_of_decodeOperands_ok (m := .jal) hop (formatJal_label .jal label)
  · exact decode_of_decodeOperands_ok (m := .jal) hop (formatJal_registerToken .jal label h1)

/-- Settles O9: format JUMP, and a redirect from the state as it is. -/
theorem jRedirectsAndWritesNoRegister : Obligations.JRedirectsAndWritesNoRegister := by
  refine ⟨fun op label hop => ?_, rejectsAllBut_formats .j, fun label s => s.redirect_redirectEffect label⟩
  exact decode_of_decodeOperands_ok (m := .j) hop (formatJump_label .j label)

end Sys2Proof.Machine
end

section
/-! The decoder against the encoder, the opcode's case, the label form and the order of the operand checks
(`30_encoding.md` R71, R73, R81, R82): what each operand list is read as, and the first fault where it is not. -/

namespace Sys2Proof

open Sys2Proof.Claims

/-! ### The canonical spelling is read back, and is made of tokens (log entry 10) -/

/-- A register's canonical spelling is a register token of its index. -/
theorem registerToken_regToken (r : RegIdx) : RegisterToken (regToken r) r :=
  (regOperand_ok_iff_registerToken _ r).mp (regOperand_regToken r)

/-- An immediate's canonical spelling is an immediate token of its value. -/
theorem immediateToken_immToken (n : Int) : ImmediateToken (immToken n) n :=
  (immOperand_ok_iff_immediateToken _ n).mp (immOperand_immToken n)

/-- An encoded slot is its tag's mnemonic and then operands which that tag's format reads back. -/
theorem encode_eq_mnemonic_cons (i : Instr) :
    ∃ ops, encode i = i.tag.mnemonic :: ops ∧ decodeOperands i.tag ops = .ok i := by
  have reg := registerToken_regToken
  have imm := immediateToken_immToken
  cases i with
  | add rd rs1 rs2 => exact ⟨_, rfl, formatRRR_registerTokens .add (reg rd) (reg rs1) (reg rs2)⟩
  | sub rd rs1 rs2 => exact ⟨_, rfl, formatRRR_registerTokens .sub (reg rd) (reg rs1) (reg rs2)⟩
  | addi rd rs1 n => exact ⟨_, rfl, formatRRI_tokens .addi (reg rd) (reg rs1) (imm n)⟩
  | li rd n => exact ⟨_, rfl, formatRI_tokens .li (reg rd) (imm n)⟩
  | lw rd offset rs1 => exact ⟨_, rfl, formatMem_tokens .lw (reg rd) (imm offset) (reg rs1)⟩
  | sw rs2 offset rs1 => exact ⟨_, rfl, formatMem_tokens .sw (reg rs2) (imm offset) (reg rs1)⟩
  | beq rs1 rs2 tok => exact ⟨_, rfl, formatBranch_registerTokens .beq tok (reg rs1) (reg rs2)⟩
  | jal rd tok => exact ⟨_, rfl, formatJal_registerToken .jal tok (reg rd)⟩
  | j tok => exact ⟨_, rfl, formatJump_label .j tok⟩

theorem decode_encode (i : Instr) : decode (encode i) = .instr i := by
  obtain ⟨ops, hencode, hread⟩ := encode_eq_mnemonic_cons i
  rw [hencode, decode_recognized ops (tagOf_mnemonic i.tag), hread, recognizedSlot_ok]

/-- A digit is neither a blank nor a comma. -/
theorem isTokenChar_of_isDigitChar {c : Char} (h : isDigitChar c = true) : isTokenChar c = true := by
  obtain ⟨hlo, -⟩ : '0' ≤ c ∧ c ≤ '9' := by simpa [isDigitChar] using h
  have hge : 48 ≤ c.toNat := hlo
  have hne : ∀ d : Char, d.toNat < 48 → c ≠ d := by
    rintro d hd rfl
    omega
  have h11 : c.toNat ≠ 11 := by omega
  have h12 : c.toNat ≠ 12 := by omega
  simp [isTokenChar, isBlank, h11, h12, hne ' ' (by decide), hne '\t' (by decide), hne '\n' (by decide),
    hne '\r' (by decide), hne ',' (by decide)]

/-- The digits of a number can be written behind any token characters. -/
theorem tokenWf_ofList_decimalDigits (cs : List Char) (n : Nat) (h : cs.all isTokenChar = true) :
    tokenWf (String.ofList (cs ++ decimalDigits n)) = true := by
  obtain ⟨hdigits, -⟩ := decimalDigits_spec n
  obtain ⟨hne, hall⟩ : decimalDigits n ≠ [] ∧ (decimalDigits n).all isDigitChar = true := by
    simpa [allDigits] using hdigits
  have htok : (decimalDigits n).all isTokenChar = true :=
    List.all_eq_true.mpr fun c hc => isTokenChar_of_isDigitChar (List.all_eq_true.mp hall c hc)
  simp [tokenWf, hne, List.all_append, h, htok]

@[simp] theorem tokenWf_regToken (r : RegIdx) : tokenWf (regToken r) = true :=
  tokenWf_ofList_decimalDigits ['x'] r.val (by decide)

@[simp] theorem tokenWf_immToken (n : Int) : tokenWf (immToken n) = true := by
  cases n with
  | ofNat k => exact tokenWf_ofList_decimalDigits [] k (by decide)
  | negSucc k => exact tokenWf_ofList_decimalDigits ['-'] (k + 1) (by decide)

@[simp] theorem tokenWf_mnemonic (m : Tag) : tokenWf m.mnemonic = true := by
  cases m <;> decide

/-- Only the label operand of an encoded slot is not the encoder's own token. -/
theorem slotWf_encode (i : Instr) : slotWf (encode i) = i.wf := by
  cases i <;> simp [encode, slotWf, Instr.wf, Instr.target?]

/-- Settles O10: each operand's canonical spelling is one its class reads back, and every token of an encoded slot
but the label operand is made of token characters. -/
theorem decodeOfEncodeIsTheInstruction : Obligations.DecodeOfEncodeIsTheInstruction :=
  fun i => ⟨decode_encode i, fun hwf => (slotWf_encode i).trans hwf⟩

/-! ### Which slots are instructions, and which are Label Definitions -/

/-- A slot decodes to an instruction exactly when its opcode folds to a mnemonic whose format reads the operands as
that instruction. -/
theorem decode_cons_eq_instr_iff (op : Token) (ops : List Token) (i : Instr) :
    decode (op :: ops) = .instr i ↔ ∃ m : Tag, lower op = m.mnemonic ∧ decodeOperands m ops = .ok i := by
  refine ⟨fun h => ?_, fun ⟨m, hop, hread⟩ => decode_of_decodeOperands_ok hop hread⟩
  cases htag : tagOf op with
  | none =>
    rw [decode_unrecognized ops htag] at h
    split at h <;> cases h
  | some m =>
    rw [decode_recognized ops htag] at h
    cases hread : decodeOperands m ops with
    | error r => simp [hread] at h
    | ok i' =>
      obtain rfl : i' = i := by simpa [hread] using h
      exact ⟨m, (tagOf_eq_some_iff op m).mp htag, hread⟩

/-- Settles O12: which instruction a slot is depends on its opcode token through the fold alone. -/
theorem opcodeMatchIgnoresCase : Obligations.OpcodeMatchIgnoresCase := by
  intro op op' ops i hfold
  rw [decode_cons_eq_instr_iff, decode_cons_eq_instr_iff, hfold]

/-- Settles O11, by evaluating the decoder on the ten slots. -/
theorem writtenOutSlotsDecode : Obligations.WrittenOutSlotsDecode := by
  unfold Obligations.WrittenOutSlotsDecode
  decide

/-- A token is `name:` exactly when it ends with a colon and is `name` without its last character. -/
theorem eq_append_colon_iff (op name : Token) :
    op = name ++ ":" ↔ endsWithColon op = true ∧ dropLastChar op = name := by
  constructor
  · rintro rfl
    simp [endsWithColon, dropLastChar]
  · rintro ⟨hcolon, rfl⟩
    obtain ⟨stem, rfl⟩ := (endsWithColon_iff op).mp hcolon
    simp [dropLastChar]

/-- Settles O13: the decoder tests for a Label Definition first, so the one token and its colon decide it alone. -/
theorem labelDefinitionIsOneTokenWithFinalColon : Obligations.LabelDefinitionIsOneTokenWithFinalColon := by
  intro line name
  cases line with
  | nil => simp [decode_nil]
  | cons op ops =>
    cases htag : tagOf op with
    | some m =>
      have hop : op ≠ name ++ ":" := by simp [eq_append_colon_iff, endsWithColon_of_tagOf htag]
      rw [decode_recognized ops htag]
      cases decodeOperands m ops <;> simp [hop]
    | none =>
      rw [decode_unrecognized ops htag, List.cons.injEq, eq_append_colon_iff]
      split
      · next hlabel => simp [hlabel]
      · next hlabel =>
        simp only [reduceCtorEq, false_iff]
        rintro ⟨⟨hcolon, -⟩, hops⟩
        exact hlabel ⟨hops, hcolon⟩

/-! ### The leftmost operand fault (R81, R82, D24) -/

/-- What an operand read `x` gives, where `fault` is what the check of R81 found: that fault, or else a value that
has the property `P`. -/
def ReadsAs {α : Type} (fault : Option MalformedReason) (x : Except MalformedReason α) (P : α → Prop) : Prop :=
  match fault with
  | some r => x = .error r
  | none   => ∃ a, x = .ok a ∧ P a

/-- R81's check of a register operand is the decoder's. -/
theorem regOperand_readsAs (tok : Token) :
    ReadsAs (operandFault .reg tok) (regOperand tok) (fun _ => True) := by
  unfold regOperand
  cases hreg : isRegTok tok with
  | false =>
    have hfault : operandFault .reg tok = some .badRegister := by simp [operandFault, hreg]
    simp [ReadsAs, hfault]
  | true =>
    by_cases hrange : regval tok < 32
    · have hfault : operandFault .reg tok = none := by simp [operandFault, hreg, hrange]
      simp [ReadsAs, hfault, hrange]
    · have hfault : operandFault .reg tok = some .registerRange := by
        simp [operandFault, hreg, not_lt.mp hrange]
      simp [ReadsAs, hfault, hrange]

/-- R81's check of an immediate operand is the decoder's. -/
theorem immOperand_readsAs (tok : Token) :
    ReadsAs (operandFault .imm tok) (immOperand tok) (fun _ => True) := by
  unfold immOperand
  cases hint : isInt tok with
  | false =>
    have hfault : operandFault .imm tok = some .badImmediate := by simp [operandFault, hint]
    simp [ReadsAs, hfault]
  | true =>
    have hfault : operandFault .imm tok = none := by simp [operandFault, hint]
    simp [ReadsAs, hfault]

theorem readsAs_ok {α : Type} {P : α → Prop} {a : α} (h : P a) : ReadsAs none (.ok a) P := ⟨a, rfl, h⟩

/-- Reading one operand and then the rest follows the loop of R81: the first operand's fault comes first. -/
theorem readsAs_bind {α β : Type} {c : FieldClass} {cs : List FieldClass} {tok : Token} {toks : List Token}
    {x : Except MalformedReason α} {f : α → Except MalformedReason β} {P : β → Prop}
    (hx : ReadsAs (operandFault c tok) x (fun _ => True)) (hf : ∀ a, ReadsAs (firstFault cs toks) (f a) P) :
    ReadsAs (firstFault (c :: cs) (tok :: toks)) (x >>= f) P := by
  unfold firstFault
  cases hfault : operandFault c tok with
  | some r =>
    rw [hfault] at hx
    exact (bind_eq_error x f r).mpr (.inl hx)
  | none =>
    rw [hfault] at hx
    obtain ⟨a, rfl, -⟩ := hx
    exact hf a

section
/-! Each format reads its operands left to right, and what it makes of them has any property that all it can make
have. -/

variable {P : Instr → Prop} {ops : List Token}

theorem formatRRR_readsAs (mk : RegIdx → RegIdx → RegIdx → Instr) (hlen : ops.length = 3)
    (h : ∀ a b c, P (mk a b c)) : ReadsAs (firstFault [.reg, .reg, .reg] ops) (formatRRR mk ops) P := by
  obtain ⟨t1, t2, t3, rfl⟩ := List.length_eq_three.mp hlen
  exact readsAs_bind (regOperand_readsAs t1) fun a => readsAs_bind (regOperand_readsAs t2) fun b =>
    readsAs_bind (regOperand_readsAs t3) fun c => readsAs_ok (h a b c)

theorem formatRRI_readsAs (mk : RegIdx → RegIdx → Int → Instr) (hlen : ops.length = 3)
    (h : ∀ a b n, P (mk a b n)) : ReadsAs (firstFault [.reg, .reg, .imm] ops) (formatRRI mk ops) P := by
  obtain ⟨t1, t2, t3, rfl⟩ := List.length_eq_three.mp hlen
  exact readsAs_bind (regOperand_readsAs t1) fun a => readsAs_bind (regOperand_readsAs t2) fun b =>
    readsAs_bind (immOperand_readsAs t3) fun n => readsAs_ok (h a b n)

theorem formatRI_readsAs (mk : RegIdx → Int → Instr) (hlen : ops.length = 2)
    (h : ∀ a n, P (mk a n)) : ReadsAs (firstFault [.reg, .imm] ops) (formatRI mk ops) P := by
  obtain ⟨t1, t2, rfl⟩ := List.length_eq_two.mp hlen
  exact readsAs_bind (regOperand_readsAs t1) fun a => readsAs_bind (immOperand_readsAs t2) fun n =>
    readsAs_ok (h a n)

theorem formatMem_readsAs (mk : RegIdx → Int → RegIdx → Instr) (hlen : ops.length = 3)
    (h : ∀ a n c, P (mk a n c)) : ReadsAs (firstFault [.reg, .imm, .reg] ops) (formatMem mk ops) P := by
  obtain ⟨t1, t2, t3, rfl⟩ := List.length_eq_three.mp hlen
  exact readsAs_bind (regOperand_readsAs t1) fun a => readsAs_bind (immOperand_readsAs t2) fun n =>
    readsAs_bind (regOperand_readsAs t3) fun c => readsAs_ok (h a n c)

theorem formatBranch_readsAs (mk : RegIdx → RegIdx → Token → Instr) (hlen : ops.length = 3)
    (h : ∀ a b t, P (mk a b t)) : ReadsAs (firstFault [.reg, .reg, .label] ops) (formatBranch mk ops) P := by
  obtain ⟨t1, t2, t3, rfl⟩ := List.length_eq_three.mp hlen
  exact readsAs_bind (regOperand_readsAs t1) fun a => readsAs_bind (regOperand_readsAs t2) fun b =>
    readsAs_ok (h a b t3)

theorem formatJal1_readsAs (mk : RegIdx → Token → Instr) (hlen : ops.length = 1)
    (h : ∀ a t, P (mk a t)) : ReadsAs (firstFault [.label] ops) (formatJal mk ops) P := by
  obtain ⟨t1, rfl⟩ := List.length_eq_one_iff.mp hlen
  exact readsAs_ok (h Config.linkRegister t1)

theorem formatJal2_readsAs (mk : RegIdx → Token → Instr) (hlen : ops.length = 2)
    (h : ∀ a t, P (mk a t)) : ReadsAs (firstFault [.reg, .label] ops) (formatJal mk ops) P := by
  obtain ⟨t1, t2, rfl⟩ := List.length_eq_two.mp hlen
  exact readsAs_bind (regOperand_readsAs t1) fun a => readsAs_ok (h a t2)

theorem formatJump_readsAs (mk : Token → Instr) (hlen : ops.length = 1)
    (h : ∀ t, P (mk t)) : ReadsAs (firstFault [.label] ops) (formatJump mk ops) P := by
  obtain ⟨t1, rfl⟩ := List.length_eq_one_iff.mp hlen
  exact readsAs_ok (h t1)

end

/-- A mnemonic's operands, as many as one of its formats has, are read left to right by that format's classes, and
give an instruction of that mnemonic where none is faulty. -/
theorem decodeOperands_readsAs {m : Tag} {cs : List FieldClass} {ops : List Token} (hcs : cs ∈ m.formats)
    (hlen : cs.length = ops.length) :
    ReadsAs (firstFault cs ops) (decodeOperands m ops) (fun i => i.tag = m) := by
  cases m with
  | add => cases List.mem_singleton.mp hcs; exact formatRRR_readsAs .add hlen.symm fun _ _ _ => rfl
  | sub => cases List.mem_singleton.mp hcs; exact formatRRR_readsAs .sub hlen.symm fun _ _ _ => rfl
  | addi => cases List.mem_singleton.mp hcs; exact formatRRI_readsAs .addi hlen.symm fun _ _ _ => rfl
  | li => cases List.mem_singleton.mp hcs; exact formatRI_readsAs .li hlen.symm fun _ _ => rfl
  | lw => cases List.mem_singleton.mp hcs; exact formatMem_readsAs .lw hlen.symm fun _ _ _ => rfl
  | sw => cases List.mem_singleton.mp hcs; exact formatMem_readsAs .sw hlen.symm fun _ _ _ => rfl
  | beq => cases List.mem_singleton.mp hcs; exact formatBranch_readsAs .beq hlen.symm fun _ _ _ => rfl
  | jal =>
    rcases List.mem_pair.mp hcs with rfl | rfl
    · exact formatJal1_readsAs .jal hlen.symm fun _ _ => rfl
    · exact formatJal2_readsAs .jal hlen.symm fun _ _ => rfl
  | j => cases List.mem_singleton.mp hcs; exact formatJump_readsAs .j hlen.symm fun _ => rfl

/-- Settles O16: a recognized slot has the class its operands' reading gives, and that reading follows R81's loop. -/
theorem leftmostOperandFaultIsReported : Obligations.LeftmostOperandFaultIsReported := by
  refine ⟨decode_nil, fun m op ops cs hop hcs hlen => ?_⟩
  rw [decode_recognized ops ((tagOf_eq_some_iff op m).mpr hop)]
  have hread := decodeOperands_readsAs hcs hlen
  cases hfault : firstFault cs ops with
  | some r =>
    rw [hfault] at hread
    exact (recognizedSlot_eq_malformed_iff op _ r).mpr hread
  | none =>
    rw [hfault] at hread
    obtain ⟨i, hi, htag⟩ := hread
    exact ⟨i, congrArg (recognizedSlot op) hi, htag⟩

end Sys2Proof
end

section
/-! One step (`40_dispatch.md` R103 to R107, `60_exceptions.md` R164 to R168): the ways a step can end, each with
what it leaves, and from them the invariant and the other statements about every step. -/

namespace Sys2Proof.Machine

open Sys2Proof.Claims

/-! ### The step of a state whose slot is known -/

/-- An engine with no fault recorded and a slot at its pc runs that slot (R104). -/
theorem step_of_fetched {s : State} {line : TokenLine} (hfault : s.fault = none)
    (hline : s.prog[s.pc]? = some line) : step s = execSlot (decode line) s := by
  obtain ⟨hlt, -⟩ := List.getElem?_eq_some_iff.mp hline
  rw [step_of_running ((State.status_running_iff s).mpr ⟨hfault, hlt⟩), State.fetch_eq hline]

/-- Settles O17: each class is one arm of `execSlot`, and `exec` counts one instruction and one cycle whichever
instruction it is given. -/
theorem stepRunsTheFetchedSlot : Obligations.StepRunsTheFetchedSlot := by
  intro s line hfault hline
  rw [step_of_fetched hfault hline]
  refine ⟨fun name hd => ?_, fun op hd => ?_, fun op r hd => ?_, fun i hd => ?_⟩
  · rw [hd]; rfl
  · rw [hd]; rfl
  · rw [hd]; rfl
  · obtain ⟨t, hnext, -, -, -, hinstr, hcycle, -⟩ := exec_cases i s
    exact ⟨by rw [hd]; rfl, t, hnext, hcycle, hinstr⟩

/-- Settles O18, by the two conditions of R38. -/
theorem onlyRunningEngineChanges : Obligations.OnlyRunningEngineChanges := by
  intro s
  refine ⟨fun hfault => ?_, fun hfault hend => ?_, fun hfault hlt => ?_⟩
  · have hs := (State.status_faulted_iff s).mpr hfault
    exact ⟨hs, step_of_notRunning (by simp [hs])⟩
  · have hs := (State.status_halted_iff s).mpr ⟨hfault, hend⟩
    exact ⟨hs, step_of_notRunning (by simp [hs])⟩
  · exact (State.status_running_iff s).mpr ⟨hfault, hlt⟩

/-! ### The ways a step can end -/

/-- The state `t` is left by a step of `s`: the same state where the engine is not Running, and otherwise what the
class of the fetched slot gives. -/
inductive StepEffect (s : State) : State → Prop where
  | stopped (hstop : s.status ≠ .running) : StepEffect s s
  | label {name : Token} (hrun : s.status = .running) (hd : decode s.fetch = .labelDef name) :
      StepEffect s s.skipLabel
  | unknown {op : Token} (hrun : s.status = .running) (hd : decode s.fetch = .unknown op) :
      StepEffect s (s.skipUnknown op)
  | malformed {op : Option Token} {r : MalformedReason} (hrun : s.status = .running)
      (hd : decode s.fetch = .malformed op r) : StepEffect s (s.raiseMalformed op r)
  | instr {i : Instr} {t : State} (hrun : s.status = .running) (hd : decode s.fetch = .instr i)
      (heffect : InstrEffect i s t) : StepEffect s t

/-- Every step of every state answers a next state, and ends in one of these ways. -/
theorem exists_step_stepEffect (s : State) : ∃ t, step s = .next t ∧ StepEffect s t := by
  rcases step_cases s with ⟨hstop, hstep⟩ | ⟨hrun, -, hclass⟩
  · exact ⟨s, hstep, .stopped hstop⟩
  · rcases hclass with ⟨name, hd, hstep⟩ | ⟨op, hd, hstep⟩ | ⟨op, r, hd, hstep⟩ | ⟨i, hd, hstep⟩
    · exact ⟨_, hstep, .label hrun hd⟩
    · exact ⟨_, hstep, .unknown hrun hd⟩
    · exact ⟨_, hstep, .malformed hrun hd⟩
    · obtain ⟨t, hnext, heffect⟩ := exec_cases i s
      exact ⟨t, hstep.trans hnext, .instr hrun hd heffect⟩

theorem stepEffect_of_step {s t : State} (h : step s = .next t) : StepEffect s t := by
  obtain ⟨t', hstep, heffect⟩ := exists_step_stepEffect s
  cases hstep.symm.trans h
  exact heffect

/-- Settles O19: no way a step can end is a fault or a refusal. -/
theorem everyStepAnswersNextState : Obligations.EveryStepAnswersNextState := by
  intro s
  obtain ⟨t, hstep, -⟩ := exists_step_stepEffect s
  exact ⟨t, hstep⟩

/-- Settles O23: no way a step can end writes the instruction store or the Label Table. -/
theorem programAndLabelsNeverChange : Obligations.ProgramAndLabelsNeverChange := by
  intro s t h
  cases stepEffect_of_step h with
  | stopped _ => exact ⟨rfl, rfl⟩
  | label _ _ => exact ⟨rfl, rfl⟩
  | unknown _ _ => exact ⟨rfl, rfl⟩
  | malformed _ _ => exact ⟨rfl, rfl⟩
  | instr _ _ heffect =>
    obtain ⟨hprog, hlabels, -⟩ := heffect
    exact ⟨hprog, hlabels⟩

/-- Settles O28: of the ways a step can end, only the Malformed one touches the fault record, and an engine with a
fault recorded stays as it is. -/
theorem malformedOperandIsPreciseAndFinal : Obligations.MalformedOperandIsPreciseAndFinal := by
  intro s t h hne
  cases stepEffect_of_step h with
  | stopped _ => exact absurd rfl hne
  | label _ _ => exact absurd rfl hne
  | unknown _ _ => exact absurd rfl hne
  | @malformed op r hrun hd =>
    obtain ⟨hfault, -⟩ := (State.status_running_iff s).mp hrun
    obtain ⟨hfaulted, -, -⟩ := onlyRunningEngineChanges (s.raiseMalformed op r)
    obtain ⟨-, hstay⟩ := hfaulted (by simp)
    exact ⟨hfault, ⟨s.fetch, op, r, State.fetch_of_running hrun, hd, rfl⟩, hstay⟩
  | instr _ _ heffect =>
    obtain ⟨-, -, hfault, -⟩ := heffect
    exact absurd hfault hne

/-! ### The counters and the log -/

/-- An instruction's effect on the counters and the log: a raise by at most one each, and at most one record. -/
theorem InstrEffect.grows {i : Instr} {s t : State} (h : InstrEffect i s t) :
    s.memoryAccesses ≤ t.memoryAccesses ∧ t.memoryAccesses ≤ s.memoryAccesses + 1 ∧
      ∃ ds : List Diag, t.diags = s.diags ++ ds ∧ ds.length ≤ 1 := by
  obtain ⟨-, -, -, -, -, -, hlog⟩ := h
  rcases hlog with ⟨hdiags, hacc | hacc⟩ | ⟨hacc, -, tok, -, hdiags, -, -⟩
  · exact ⟨by omega, by omega, [], by simp [hdiags], by simp⟩
  · exact ⟨by omega, by omega, [], by simp [hdiags], by simp⟩
  · exact ⟨by omega, by omega, _, hdiags, by simp⟩

/-- Settles O24, by the ways a step can end; the one that records a fault changes no counter and logs nothing. -/
theorem countersAndLogOnlyGrowByOneCondition : Obligations.CountersAndLogOnlyGrowByOneCondition := by
  intro s t h
  cases stepEffect_of_step h with
  | stopped _ => exact ⟨by omega, by omega, by omega, [], by simp⟩
  | label _ _ => exact ⟨by simp, by simp, by simp, [], by simp⟩
  | unknown _ _ => exact ⟨by simp, by simp, by simp, _, rfl, by simp, fun hne => absurd rfl hne⟩
  | malformed _ _ => exact ⟨by simp, by simp, by simp, [], by simp⟩
  | instr _ _ heffect =>
    obtain ⟨haccLe, haccGe, ds, hdiags, hlen⟩ := heffect.grows
    obtain ⟨-, -, hfault, hinstr, hcycle, -⟩ := heffect
    exact ⟨by omega, by omega, ⟨haccLe, haccGe⟩, ds, hdiags, hlen, fun hne => absurd hfault hne⟩

/-- What a Running engine's step adds to the instruction and cycle counters, by the class of its slot. -/
theorem step_counts {s t : State} (hrun : s.status = .running) (h : step s = .next t) :
    t.instructionCount = s.instructionCount + (if isInstruction (decode s.fetch) = true then 1 else 0) ∧
    t.cycleCount = s.cycleCount + (if isInstruction (decode s.fetch) = true then 1 else 0)
      + (if isUnknown (decode s.fetch) = true then 1 else 0) := by
  cases stepEffect_of_step h with
  | stopped hstop => exact absurd hrun hstop
  | label _ hd => rw [hd]; exact ⟨rfl, rfl⟩
  | unknown _ hd => rw [hd]; exact ⟨rfl, rfl⟩
  | malformed _ hd => rw [hd]; exact ⟨rfl, rfl⟩
  | instr _ hd heffect =>
    obtain ⟨-, -, -, hinstr, hcycle, -⟩ := heffect
    rw [hd]
    exact ⟨hinstr, hcycle⟩

theorem slotsStepped_of_notRunning (k : Nat) {s : State} (hstop : s.status ≠ .running) : slotsStepped k s = [] := by
  cases k with
  | zero => rfl
  | succ k =>
    unfold slotsStepped
    split
    · next hrun _ => exact absurd hrun hstop
    · rfl

theorem slotsStepped_succ (k : Nat) {s t : State} (hrun : s.status = .running) (h : step s = .next t) :
    slotsStepped (k + 1) s = decode s.fetch :: slotsStepped k t := by
  simp [slotsStepped, hrun, h]

/-- Settles O26, by induction on the length of the run: a Running engine's first step counts its slot, and an engine
that is not Running is left by the whole run. -/
theorem countersCountTheSlotsOfARun : Obligations.CountersCountTheSlotsOfARun := by
  intro k
  induction k with
  | zero =>
    intro s t h
    cases (run_zero s).symm.trans h
    simp [slotsStepped]
  | succ k ih =>
    intro s t h
    by_cases hrun : s.status = .running
    · obtain ⟨u, hstep⟩ := everyStepAnswersNextState s
      obtain ⟨hinstr, hcycle⟩ := step_counts hrun hstep
      have hacc := memoryAccessesCountLoadsAndStores s u hstep
      obtain ⟨ihinstr, ihcycle, ihacc⟩ := ih u t ((run_succ k hstep).symm.trans h)
      simp only [hrun, true_and] at hacc
      simp only [slotsStepped_succ k hrun hstep, List.countP_cons]
      omega
    · cases (run_fixed (k + 1) (step_of_notRunning hrun)).symm.trans h
      simp [slotsStepped_of_notRunning (k + 1) hrun]

/-! ### The invariant -/

/-- What explains a record of the log is the program and the Label Table alone. -/
theorem State.explainsDiag_congr {s t : State} {d : Diag} (hprog : t.prog = s.prog) (hlabels : t.labels = s.labels)
    (h : s.explainsDiag d) : t.explainsDiag d := by
  unfold State.explainsDiag at h ⊢
  rwa [hprog, hlabels]

/-- A log stays explained when records that are explained are added to it. -/
theorem State.explainsDiag_append {s t : State} {ds : List Diag} (hprog : t.prog = s.prog)
    (hlabels : t.labels = s.labels) (hdiags : t.diags = s.diags ++ ds) (hold : ∀ d ∈ s.diags, s.explainsDiag d)
    (hnew : ∀ d ∈ ds, s.explainsDiag d) : ∀ d ∈ t.diags, t.explainsDiag d := by
  intro d hd
  rw [hdiags] at hd
  refine State.explainsDiag_congr hprog hlabels ?_
  rcases List.mem_append.mp hd with hd | hd
  · exact hold d hd
  · exact hnew d hd

/-- An instruction keeps the invariant: what it logs is an undefined target of its own, and it then makes no memory
access. -/
theorem InstrEffect.inv {i : Instr} {s t : State} (h : InstrEffect i s t) (hinv : s.Inv)
    (hrun : s.status = .running) (hd : decode s.fetch = .instr i) : t.Inv := by
  obtain ⟨hmem, hlabels, hcycles, haccesses, hdiags, hfault⟩ := hinv
  obtain ⟨hprog', hlabels', hfault', hinstr', hcycle', hmem', hlog⟩ := h
  obtain ⟨hnone, -⟩ := (State.status_running_iff s).mp hrun
  have hwf : t.mem.wf := by
    rcases hmem' with hsame | ⟨a, v, hins⟩
    · rwa [hsame]
    · rw [hins]; exact Memory.insert_wf a v hmem
  have hnofault : ∀ f, t.fault = some f → t.explainsFault f := by simp [hfault', hnone]
  have hbuilt : t.labels = buildLabels t.prog := by rw [hlabels', hprog', hlabels]
  rcases hlog with ⟨hsame, hacc⟩ | ⟨hacc, -, tok, htarget, hdiags', hnum, hundef⟩
  · refine ⟨hwf, hbuilt, ?_, ?_, ?_, hnofault⟩
    · rw [hsame]; omega
    · rw [hsame]; omega
    · exact State.explainsDiag_append hprog' hlabels' (ds := []) (by simp [hsame]) hdiags (by simp)
  · refine ⟨hwf, hbuilt, ?_, ?_, ?_, hnofault⟩
    · simp only [hdiags', countDiags_append, countDiags_single, reduceCtorEq, if_false]
      omega
    · simp only [hdiags', countDiags_append, countDiags_single, if_true]
      omega
    · refine State.explainsDiag_append hprog' hlabels' hdiags' hdiags fun d hmem => ?_
      obtain rfl := List.mem_singleton.mp hmem
      exact ⟨s.fetch, State.fetch_of_running hrun, ⟨i, hd, htarget⟩, hnum, hundef⟩

/-- Settles O20, by the ways a step can end: a record is added, or a fault recorded, only by the slot that explains
it. -/
theorem stepKeepsInvariant : Obligations.StepKeepsInvariant := by
  intro s t hinv h
  cases stepEffect_of_step h with
  | stopped _ => exact hinv
  | label hrun _ =>
    obtain ⟨hmem, hlabels, hcycles, haccesses, hdiags, -⟩ := hinv
    obtain ⟨hnone, -⟩ := (State.status_running_iff s).mp hrun
    exact ⟨hmem, hlabels, hcycles, haccesses, hdiags, by simp [hnone]⟩
  | @unknown op hrun hd =>
    obtain ⟨hmem, hlabels, hcycles, haccesses, hdiags, -⟩ := hinv
    obtain ⟨hnone, -⟩ := (State.status_running_iff s).mp hrun
    refine ⟨hmem, hlabels, ?_, ?_, ?_, by simp [hnone]⟩
    · simp only [State.skipUnknown_cycleCount, State.skipUnknown_instructionCount, State.skipUnknown_diags,
        countDiags_append, countDiags_single, if_true]
      omega
    · simpa using haccesses
    · refine State.explainsDiag_append (s := s) rfl rfl rfl hdiags fun d hmem => ?_
      obtain rfl := List.mem_singleton.mp hmem
      exact ⟨s.fetch, State.fetch_of_running hrun, hd⟩
  | @malformed op r hrun hd =>
    obtain ⟨hmem, hlabels, hcycles, haccesses, hdiags, -⟩ := hinv
    refine ⟨hmem, hlabels, hcycles, haccesses, hdiags, fun f hf => ?_⟩
    cases hf
    exact ⟨rfl, s.fetch, State.fetch_of_running (s := s) hrun, hd⟩
  | instr hrun hd heffect => exact heffect.inv hinv hrun hd

end Sys2Proof.Machine
end

section
/-! Load and its invariant, jumps to labels, and data memory as a whole (`70_reset_and_hazards.md` R190,
`40_dispatch.md` R110 to R112, `20_memory.md` R66, R67). -/

namespace Sys2Proof.Machine

open Sys2Proof.Claims

/-! ### Load (R41, R190) -/

/-- Settles O21: the log, the fault record and memory are empty after Load, and the Label Table is built. -/
theorem loadEstablishesInvariant : Obligations.LoadEstablishesInvariant := by
  refine ⟨rfl, fun prog => ?_⟩
  exact {
    memory := State.reset_memory_wf
    labels := rfl
    cycles := rfl
    accesses := Nat.le_refl 0
    diags := fun _ hd => absurd hd List.not_mem_nil
    fault := fun _ hf => nomatch hf }

/-- Every register is 0 after Load (D13). -/
@[simp] theorem State.readReg_load (prog : List TokenLine) (r : RegIdx) : (State.load prog).readReg r = 0 := by
  simp [State.readReg, State.load, State.reset, Config.resetRegister]

/-- A loaded engine is Halted exactly when its program is empty (R38, D16). -/
theorem State.status_load (prog : List TokenLine) :
    (State.load prog).status = if prog = [] then .halted else .running := by
  cases prog <;> rfl

/-- Settles O22: Load keeps nothing of the state it is given, so each element is the one `State.load` names. -/
theorem loadResetsEveryElement : Obligations.LoadResetsEveryElement := by
  rintro prog s t rfl
  exact ⟨rfl, rfl, rfl, State.readReg_load prog, fun _ => ⟨rfl, rfl⟩, rfl, rfl, rfl, rfl, rfl,
    State.status_load prog⟩

/-! ### Jumps (R110 to R112) -/

/-- Settles O31: the built table binds the name to its last definition, where the engine then finds a label. -/
theorem jumpLandsOnDefinitionAndSkipsIt : Obligations.JumpLandsOnDefinitionAndSkipsIt := by
  intro s n line name hfault hlabels hnum hline hd hlast
  have hbound : s.labels.index? name = some n := by
    rw [hlabels]
    exact (buildLabels_index?_eq_some_iff s.prog name n).mpr ⟨⟨line, hline, hd⟩, hlast⟩
  obtain ⟨t, hnext, ⟨⟨hprog', -, hfault', -⟩, -⟩, ⟨hres, -⟩, -⟩ := s.redirect_redirectEffect name
  have hpc : t.pc = n := by simpa [ResolvesTo, hnum, hbound] using hres
  have hfetch : t.prog[t.pc]? = some line := by rw [hprog', hpc, hline]
  refine ⟨t, hnext, hpc, ?_⟩
  rw [step_of_fetched (hfault'.trans hfault) hfetch, hd, ← hpc]
  rfl

/-- A jump to an undefined label leaves the pc where it is, counts once and logs the label. -/
theorem execJ_undefined {s : State} {tok : Token} (hnum : isNumeral tok = false)
    (hundef : s.labels.index? tok = none) :
    execJ tok s = .next (s.report .labelNotFound s.pc tok).countCycle.countInstruction := by
  obtain ⟨n, ds, hnext, hcase⟩ := s.redirect_cases tok
  rcases hcase with ⟨hnum', -⟩ | ⟨-, hdef, -⟩ | ⟨-, -, rfl, rfl⟩
  · simp [hnum] at hnum'
  · simp [hundef] at hdef
  · exact hnext

/-- Settles O32, by induction on the number of steps: the jump leaves a state of the same kind, at the same slot. -/
theorem undefinedJumpRepeatsForever : Obligations.UndefinedJumpRepeatsForever := by
  intro k
  induction k with
  | zero =>
    intro s line tok _ _ _ _ _
    simp [run_zero]
  | succ k ih =>
    intro s line tok hfault hline hd hnum hundef
    have hstep : step s = .next (s.report .labelNotFound s.pc tok).countCycle.countInstruction := by
      rw [step_of_fetched hfault hline, hd]
      exact execJ_undefined hnum hundef
    refine (run_succ k hstep).trans ((ih (s.report .labelNotFound s.pc tok).countCycle.countInstruction
      line tok hfault hline hd hnum hundef).trans ?_)
    simp [List.replicate_succ, Nat.add_assoc, Nat.add_comm 1 k]

/-! ### Data memory (R66, R67) -/

/-- The effective address depends on the base register alone. -/
theorem State.effectiveAddr_congr {s t : State} {rs1 : RegIdx} (h : t.readReg rs1 = s.readReg rs1) (offset : Int) :
    t.effectiveAddr rs1 offset = s.effectiveAddr rs1 offset := by
  rw [State.effectiveAddr, State.effectiveAddr, h]

/-- Settles O36: SW writes no register, so LW forms the same address and finds the word that SW put there. -/
theorem loadAfterStoreGivesStoredValue : Obligations.LoadAfterStoreGivesStoredValue := by
  intro s rs2 rs1 rd offset
  obtain ⟨t, hsw, hmem, -, -, hreg, -, hacc⟩ := execSw_effect rs2 rs1 offset s
  obtain ⟨u, hlw, -, -, -, -, hacc', hreg'⟩ := execLw_effect rd rs1 offset t
  have hstored : t.memRead (t.effectiveAddr rs1 offset) = s.readReg rs2 := by
    rw [State.effectiveAddr_congr (hreg rs1), State.memRead, hmem, if_pos rfl, Option.getD_some]
  refine ⟨t, u, hsw, hlw, ?_, fun r hr => ?_, by omega⟩
  · rw [OnlyRegister.readReg_self hreg', hstored]
  · rw [hreg' r, if_neg hr, hreg r]

/-- Settles O37: the snapshot shows the memory as it is listed, which in canonical form is in address order and lists
what a look-up finds. -/
theorem snapshotListsPopulatedInOrder : Obligations.SnapshotListsPopulatedInOrder :=
  fun _ => ⟨rfl, rfl, fun hwf => ⟨List.pairwise_map.mpr hwf, Memory.mem_iff_lookup hwf⟩⟩

/-- A canonical memory lists no entry twice. -/
theorem Memory.wf.nodup {m : Memory} (h : m.wf) : m.Nodup :=
  List.Pairwise.imp (fun hlt => ne_of_apply_ne Prod.fst hlt.ne) h

/-- Settles O38: the two lists have the same entries, each once, and the address order leaves one way to list them. -/
theorem canonicalMemoriesWithSameContentsAreEqual : Obligations.CanonicalMemoriesWithSameContentsAreEqual := by
  intro m n hm hn hlookup
  have hentries : ∀ p, p ∈ m ↔ p ∈ n := fun ⟨a, v⟩ => by
    rw [Memory.mem_iff_lookup hm, Memory.mem_iff_lookup hn, hlookup]
  have hperm : m.Perm n := (List.perm_ext_iff_of_nodup hm.nodup hn.nodup).mpr hentries
  exact hperm.eq_of_pairwise (fun _ _ _ _ hlt hgt => absurd hgt (lt_asymm hlt)) hm hn

end Sys2Proof.Machine
end

section
/-! What a program can tell apart (`10_state.md` R30, R40): no operation that an instruction is made of lets two states
which agree on that drift apart. -/

namespace Sys2Proof.Claims

open Sys2Proof.Machine

/-- Both outcomes are next states, and no program can tell them apart. -/
def AlikeNext (o o' : Host.Outcome State Fault Refusal) : Prop :=
  ∃ t t', o = .next t ∧ o' = .next t' ∧ SameToPrograms t t'

namespace SameToPrograms

variable {s s' : State}

/-! ### What such states agree on -/

theorem readReg (h : SameToPrograms s s') (r : RegIdx) : s.readReg r = s'.readReg r := by
  obtain ⟨-, -, -, -, hreg, -⟩ := h
  exact hreg r

theorem memRead (h : SameToPrograms s s') (a : Addr) : s.memRead a = s'.memRead a := by
  obtain ⟨-, -, -, -, -, hmem⟩ := h
  exact hmem a

theorem labels (h : SameToPrograms s s') : s.labels = s'.labels := by
  obtain ⟨-, hlabels, -⟩ := h
  exact hlabels

theorem pc (h : SameToPrograms s s') : s.pc = s'.pc := by
  obtain ⟨-, -, hpc, -⟩ := h
  exact hpc

theorem status (h : SameToPrograms s s') : s.status = s'.status := by
  obtain ⟨hprog, -, hpc, hfault, -⟩ := h
  rw [State.status, State.status, hfault, hpc, hprog]

theorem fetch (h : SameToPrograms s s') : s.fetch = s'.fetch := by
  obtain ⟨hprog, -, hpc, -⟩ := h
  rw [State.fetch, State.fetch, hprog, hpc]

theorem effectiveAddr (h : SameToPrograms s s') (rs1 : RegIdx) (offset : Int) :
    s.effectiveAddr rs1 offset = s'.effectiveAddr rs1 offset :=
  State.effectiveAddr_congr (h.readReg rs1) offset

/-! ### The operations an instruction is made of -/

theorem setPc (h : SameToPrograms s s') {n n' : Nat} (hn : n = n') : SameToPrograms (s.setPc n) (s'.setPc n') := by
  obtain ⟨hprog, hlabels, -, hfault, hreg, hmem⟩ := h
  exact ⟨hprog, hlabels, hn, hfault, hreg, hmem⟩

theorem writeReg (h : SameToPrograms s s') (rd : RegIdx) {v v' : Word} (hv : v = v') :
    SameToPrograms (s.writeReg rd v) (s'.writeReg rd v') := by
  obtain ⟨hprog, hlabels, hpc, hfault, hreg, hmem⟩ := h
  refine ⟨hprog, hlabels, hpc, hfault, fun r => ?_, hmem⟩
  rw [State.readReg_writeReg, State.readReg_writeReg, hv, hreg r]

theorem memWrite (h : SameToPrograms s s') {a a' : Addr} (ha : a = a') {v v' : Word} (hv : v = v') :
    SameToPrograms (s.memWrite a v) (s'.memWrite a' v') := by
  obtain ⟨hprog, hlabels, hpc, hfault, hreg, hmem⟩ := h
  refine ⟨hprog, hlabels, hpc, hfault, hreg, fun b => ?_⟩
  rw [State.memRead_memWrite, State.memRead_memWrite, ha, hv, hmem b]

theorem countAccess (h : SameToPrograms s s') : SameToPrograms s.countAccess s'.countAccess := h

theorem report (h : SameToPrograms s s') (c c' : DiagCode) (i i' : Nat) (tok tok' : Token) :
    SameToPrograms (s.report c i tok) (s'.report c' i' tok') := h

theorem skipLabel (h : SameToPrograms s s') : SameToPrograms s.skipLabel s'.skipLabel :=
  h.setPc (by rw [h.pc])

theorem skipUnknown (h : SameToPrograms s s') (op : Token) : SameToPrograms (s.skipUnknown op) (s'.skipUnknown op) :=
  h.setPc (by rw [h.pc])

theorem raiseMalformed (h : SameToPrograms s s') (op : Option Token) (r : MalformedReason) :
    SameToPrograms (s.raiseMalformed op r) (s'.raiseMalformed op r) := by
  obtain ⟨hprog, hlabels, hpc, -, hreg, hmem⟩ := h
  exact ⟨hprog, hlabels, hpc, by simp [hpc], hreg, hmem⟩

/-- A target resolves to the same slot, and only the log can differ afterwards. -/
theorem resolve (h : SameToPrograms s s') (tok : Token) (i : Nat) :
    (Machine.resolve tok i s).1 = (Machine.resolve tok i s').1 ∧
      SameToPrograms (Machine.resolve tok i s).2 (Machine.resolve tok i s').2 := by
  rcases resolve_cases tok i s with ⟨hnum, e⟩ | ⟨n, hnum, hl, e⟩ | ⟨hnum, hl, e⟩
  · have e' : Machine.resolve tok i s' = (natval tok, s') := by simp [Machine.resolve, hnum]
    rw [e, e']
    exact ⟨rfl, h⟩
  · have e' : Machine.resolve tok i s' = (n, s') := by simp [Machine.resolve, hnum, ← h.labels, hl]
    rw [e, e']
    exact ⟨rfl, h⟩
  · have e' : Machine.resolve tok i s' = (i, s'.report .labelNotFound i tok) := by
      simp [Machine.resolve, hnum, ← h.labels, hl]
    rw [e, e']
    exact ⟨rfl, h.report ..⟩

/-! ### Instructions and steps -/

theorem retire (h : SameToPrograms s s') {n n' : Nat} (hn : n = n') : AlikeNext (s.retire n) (s'.retire n') :=
  ⟨_, _, rfl, rfl, h.setPc hn⟩

theorem advance (h : SameToPrograms s s') : AlikeNext s.advance s'.advance :=
  h.retire (by rw [h.pc])

theorem redirect (h : SameToPrograms s s') (tok : Token) : AlikeNext (s.redirect tok) (s'.redirect tok) := by
  obtain ⟨hslot, hstate⟩ := h.resolve tok s.pc
  rw [State.redirect, State.redirect, ← h.pc]
  exact hstate.retire hslot

/-- Every instruction forms its results from registers, memory and the pc, on which such states agree. -/
theorem exec (h : SameToPrograms s s') (i : Instr) : AlikeNext (Machine.exec i s) (Machine.exec i s') := by
  cases i with
  | add rd rs1 rs2 => exact (h.writeReg rd (by rw [h.readReg rs1, h.readReg rs2])).advance
  | sub rd rs1 rs2 => exact (h.writeReg rd (by rw [h.readReg rs1, h.readReg rs2])).advance
  | addi rd rs1 imm => exact (h.writeReg rd (by rw [h.readReg rs1])).advance
  | li rd imm => exact (h.writeReg rd rfl).advance
  | lw rd offset rs1 =>
    exact (h.writeReg rd (by rw [h.effectiveAddr rs1 offset, h.memRead])).countAccess.advance
  | sw rs2 offset rs1 =>
    exact (h.memWrite (h.effectiveAddr rs1 offset) (h.readReg rs2)).countAccess.advance
  | beq rs1 rs2 tok =>
    by_cases heq : s.readReg rs1 = s.readReg rs2
    · have heq' : s'.readReg rs1 = s'.readReg rs2 := by rw [← h.readReg rs1, ← h.readReg rs2, heq]
      simpa only [Machine.exec, execBeq_taken tok heq, execBeq_taken tok heq'] using h.redirect tok
    · have heq' : s'.readReg rs1 ≠ s'.readReg rs2 := by rwa [← h.readReg rs1, ← h.readReg rs2]
      simpa only [Machine.exec, execBeq_notTaken tok heq, execBeq_notTaken tok heq'] using h.advance
  | jal rd tok => exact (h.writeReg rd (by rw [h.pc])).redirect tok
  | j tok => exact h.redirect tok

/-- Such states fetch the same slot, and each of the four arms keeps them alike. -/
theorem step (h : SameToPrograms s s') : AlikeNext (Machine.step s) (Machine.step s') := by
  by_cases hrun : s.status = .running
  · rw [step_of_running hrun, step_of_running (h.status ▸ hrun), ← h.fetch]
    cases decode s.fetch with
    | labelDef name => exact ⟨_, _, rfl, rfl, h.skipLabel⟩
    | unknown op => exact ⟨_, _, rfl, rfl, h.skipUnknown op⟩
    | malformed op r => exact ⟨_, _, rfl, rfl, h.raiseMalformed op r⟩
    | instr i => exact h.exec i
  · exact ⟨s, s', step_of_notRunning hrun, step_of_notRunning (h.status ▸ hrun), h⟩

end SameToPrograms

/-- Settles O39: the two steps answer states that are alike, and the first of them is `t`. -/
theorem programsCannotSeeCountersLogOrPopulatedSet : Obligations.ProgramsCannotSeeCountersLogOrPopulatedSet := by
  intro s s' t h hstep
  obtain ⟨u, t', hu, hstep', halike⟩ := h.step
  cases hu.symm.trans hstep
  exact ⟨t', hstep', halike⟩

end Sys2Proof.Claims
end
